-- ==== Sys2Proof/Word.lean ====
section
/-! DEFINITION. The widths of the NXB block: register words, memory bytes, table colours and pixels. -/

namespace Sys2Proof

/-- A 32-bit register word or address (R8). -/
abbrev Word := BitVec 32

/-- A byte of IN or TMEM, and a header field (R8). -/
abbrev Byte := BitVec 8

/-- A 24-bit RGB colour of the REF and GREY tables (R31). -/
abbrev Colour := BitVec 24

/-- A 2-bit pixel value (R8, R140). -/
abbrev Pixel := BitVec 2

end Sys2Proof
end

