-- ==== Sys2Proof/Syntax.lean ====
section
/-! DEFINITION. The commands of NXB, one constructor per row of spec/opcode_table.json (R81). A command carries no operand: every
operand is read from ARG0, ARG1 and ARG2 as they stand at the CMD write (R82). -/

namespace Sys2Proof

/-- The six commands of R81. -/
inductive Instr where
  /-- PARSE (R100): parse the container at IN[ARG0]. -/
  | parse
  /-- PROBE (R111): check extension and magic, never an error. -/
  | probe
  /-- DECODE_TILE (R142): decode one 16-byte block of IN into TR. -/
  | decodeTile
  /-- EXTRACT_TILES (R143): decode every whole block of a buffer of IN into TMEM. -/
  | extractTiles
  /-- LOAD_TILE (R144): copy tile ARG0 of TMEM into TR. -/
  | loadTile
  /-- RESOLVE (R171): resolve a palette index into PAL0..PAL3. -/
  | resolve
  deriving DecidableEq, Repr

end Sys2Proof
end

