-- ==== Sys2Proof/WellFormed.lean ====
section
/-! DEFINITION. Which CMD words are well formed (R80, R83), and the well-formedness of a command. -/

namespace Sys2Proof

/-- The reserved field of a CMD word, bits 31:8, must be 0 (R80, R83). -/
def rsvWf (w : Word) : Bool := w.extractLsb' 8 24 == 0

/-- The six OP values that are not illegal (R83). -/
def legalOpcodes : List Byte := [0x01, 0x02, 0x10, 0x11, 0x12, 0x20]

/-- The OP field of a CMD word, bits 7:0, must be one of the six values of R83. -/
def opWf (w : Word) : Bool := legalOpcodes.contains (w.extractLsb' 0 8)

/-- A CMD word is well formed iff it is not illegal by R83. -/
def cmdWf (w : Word) : Bool := rsvWf w && opWf w

/-- A command has no field that could be ill formed (R80, R82): every operand register value is accepted by the decoder, and
out-of-range operands are the command's own errors or fallbacks. -/
def Instr.wf : Instr → Bool
  | .parse => true
  | .probe => true
  | .decodeTile => true
  | .extractTiles => true
  | .loadTile => true
  | .resolve => true

end Sys2Proof
end

