-- ==== Sys2Proof/Decode.lean ====
section
/-! DEFINITION. The decoder of CMD words (R80, R81, R83, R85), its encoder, and the host's numbering of a table word. -/

namespace Sys2Proof

/-- The OP field of a CMD word, bits 7:0 (R80). -/
def opField (w : Word) : Byte := w.extractLsb' 0 8

/-- The RSV field of a CMD word, bits 31:8 (R80). -/
def rsvField (w : Word) : BitVec 24 := w.extractLsb' 8 24

/-- Why a CMD word is illegal (R83). -/
inductive IllegalWord where
  /-- Bits 31:8 are not all 0. -/
  | reservedBits
  /-- Bits 7:0 are none of the six opcodes. -/
  | undefinedOpcode
  deriving DecidableEq, Repr

/-- The command of an OP value (the OP column of R81). -/
def instrOfOpcode (op : Byte) : Option Instr :=
  if op = 0x01 then some .parse
  else if op = 0x02 then some .probe
  else if op = 0x10 then some .decodeTile
  else if op = 0x11 then some .extractTiles
  else if op = 0x12 then some .loadTile
  else if op = 0x20 then some .resolve
  else none

/-- Decoding with the reason a word is illegal: total on every one of the 2^32 words (R85). -/
def decodeOrReason (w : Word) : Except IllegalWord Instr :=
  if rsvField w = 0 then
    match instrOfOpcode (opField w) with
    | some i => .ok i
    | none => .error .undefinedOpcode
  else .error .reservedBits

/-- The decoder of R85: `none` means illegal. -/
def decode (w : Word) : Option Instr :=
  match decodeOrReason w with
  | .ok i => some i
  | .error _ => none

/-- The CMD word of a command (the CMD word column of R81). -/
def encode : Instr → Word
  | .parse => 0x00000001
  | .probe => 0x00000002
  | .decodeTile => 0x00000010
  | .extractTiles => 0x00000011
  | .loadTile => 0x00000012
  | .resolve => 0x00000020

/-- The command the decoder reads from a table word: a command is exactly one 32-bit word (R80), and the bits above `nbits` are 0. -/
def decodeTableWord (nbits w : Nat) : Option Instr :=
  if nbits ≤ 32 then decode (BitVec.ofNat 32 (w % 2 ^ nbits)) else none

end Sys2Proof
end

