-- ==== Sys2Proof/Config.lean ====
section
/-! DEFINITION. The parameters of 00_scope.md section 4, each an opaque constant: a claim about the model holds for every value of them. -/

namespace Sys2Proof

/-- The two values P_SHORT_HEADER may have (00_scope.md section 4, D17). -/
inductive ShortHeader where
  | formatError
  | incompleteData
  deriving DecidableEq, Repr, Inhabited

/-- The two values P_PROBE_MIN_LEN may have (00_scope.md section 4, D18). -/
inductive ProbeMinLen where
  | four
  | sixteen
  deriving DecidableEq, Repr, Inhabited

/-- The least value of IN_SIZE: the largest container must fit (R7). -/
def Config.inMin : Nat := 6267408

/-- How far IN_SIZE lies above its least value 6,267,408; at most 2^32 − 6,267,408 (R7, D3). -/
opaque Config.inExtra : Fin 4288699889

/-- IN_SIZE, the size of IN in bytes: any number in 6,267,408 .. 2^32 (R7, D3). -/
def Config.inSize : Nat := Config.inMin + Config.inExtra.val

/-- TMEM_TILES = floor(IN_SIZE / 16) (R65). -/
def Config.tmemTiles : Nat := Config.inSize / 16

/-- The size of TMEM in bytes, 80 × TMEM_TILES (R60). -/
def Config.tmemSize : Nat := 80 * Config.tmemTiles

/-- REF[0..63], the reference colour table (R31, R170, D11). -/
opaque Config.ref : Fin 64 → Colour

/-- The curated records (R31, R170, D11): `Config.preset p s` is PRESET[p+1][s], so that the nine records 1..9 are the nine values of `Fin 9`. -/
opaque Config.preset : Fin 9 → Fin 4 → Fin 64

/-- GREY[0..3], the opaque greyscale variant (R31, R170, D11). -/
opaque Config.grey : Fin 4 → Colour

/-- P_SHORT_HEADER, the error of a header shorter than 16 bytes (R100, D17). -/
opaque Config.shortHeader : ShortHeader

/-- P_PROBE_MIN_LEN as a name (R111, D18). -/
opaque Config.probeMin : ProbeMinLen

/-- P_PROBE_MIN_LEN as a number of bytes (R111, D18). -/
def Config.probeMinLen : Nat :=
  match Config.probeMin with
  | .four => 4
  | .sixteen => 16

/-- FREE VALUE (DESIGN CHOICE, log entry 11): what the 32-bit register at byte offset `reg` holds when the exact value a rule
assigns to it is `n`, 2^32 or more. R11 says that this never happens; it can, for a segment offset, when IN_SIZE is 2^32. -/
opaque Config.regOverflow (reg n : Nat) : Word

end Sys2Proof
end

