-- ==== Sys2Proof/Machine/State.lean ====
section
/-! DEFINITION. The state of NXB (10_state.md R20 to R42, 20_memory.md R60 to R65), the host's actions (R78), the reasons a step can
stop, and the state after reset (R220). -/

namespace Sys2Proof.Machine

/-- A byte memory: (address, byte) pairs, addresses strictly rising. An unlisted address has no value. -/
abbrev Mem := List Host.Cell

/-- The outcome codes of STATUS.ERR (R24). Codes 6..15 are reserved and never produced, so they have no constructor. -/
inductive ErrCode where
  | ok
  | formatError
  | incompleteData
  | argumentError
  | notFound
  | illegalCommand
  deriving DecidableEq, Repr

/-- The values of ERR_SEG (R27). 5..2^32−1 are never produced, so they have no constructor. -/
inductive Segment where
  | none
  | header
  | trainer
  | program
  | graphics
  deriving DecidableEq, Repr

/-- The four result groups, each with one VALID bit in STATUS (R25). -/
inductive Group where
  | rom
  | tr
  | tiles
  | pal
  deriving DecidableEq, Repr

/-- The values of MIRRORING (R104). -/
inductive Mirroring where
  | horizontal
  | vertical
  | fourScreen
  deriving DecidableEq, Repr

/-- What `raise Error(code, seg, expected, actual)` records (R11, R201). -/
structure ErrRecord where
  code : ErrCode
  seg : Segment
  expected : Word
  actual : Word
  deriving DecidableEq, Repr

/-- The stored members of the ROM group (R25): the header words (R30) and the segment descriptors (R33). The derived header
registers are computed on every read and never stored (R32). -/
structure RomGroup where
  hdrW0 : Word
  hdrW1 : Word
  hdrW2 : Word
  hdrW3 : Word
  trnOff : Word
  trnLen : Word
  prgOff : Word
  prgLen : Word
  chrOff : Word
  chrLen : Word
  deriving DecidableEq, Repr

/-- The stored members of the TR group (R35). TR_QUERY is computed on every read and never stored (R36). -/
structure TrGroup where
  index : Word
  rawW0 : Word
  rawW1 : Word
  rawW2 : Word
  rawW3 : Word
  row0 : Word
  row1 : Word
  row2 : Word
  row3 : Word
  row4 : Word
  row5 : Word
  row6 : Word
  row7 : Word
  deriving DecidableEq, Repr

/-- The PAL group, four colour words (R38). -/
structure PalGroup where
  pal0 : Word
  pal1 : Word
  pal2 : Word
  pal3 : Word
  deriving DecidableEq, Repr

/-- The registers of the register map (R39). -/
inductive Reg where
  | cmd
  | status
  | arg0
  | arg1
  | arg2
  | errSeg
  | errExpected
  | errActual
  | probeResult
  | hdrW (j : Fin 4)
  | mapper
  | mirroring
  | hdrFlags
  | prgUnits
  | chrUnits
  | prgSizeBytes
  | chrSizeBytes
  | trainerSizeBytes
  | totalSize
  | trnOff
  | trnLen
  | prgOff
  | prgLen
  | chrOff
  | chrLen
  | trIndex
  | trQuery
  | trRaw (j : Fin 4)
  | trRow (y : Fin 8)
  | tileCount
  | pal (s : Fin 4)
  deriving DecidableEq, Repr

/-- Everything the host can do to NXB (R78), one access each. A register is addressed by its word number, its byte offset divided
by 4: the bus carries word offsets only (R68). Addresses of IN and TMEM are 32-bit byte addresses (R8). -/
inductive HostAction where
  /-- `wr`: a 32-bit write of `v` to the register at word `o`; a write to CMD issues a command. -/
  | wr (o : BitVec 10) (v : Word)
  /-- `rd`: a 32-bit read of the register at word `o`. -/
  | rd (o : BitVec 10)
  /-- `wrb IN[a], v`: a byte write to IN. -/
  | wrbIn (a : Word) (v : Byte)
  /-- `rdb IN[a]`: a byte read of IN. -/
  | rdbIn (a : Word)
  /-- A byte write to TMEM, which has no effect (R62). -/
  | wrbTmem (a : Word) (v : Byte)
  /-- `rdb TMEM[a]`: a byte read of TMEM. -/
  | rdbTmem (a : Word)
  /-- `reset`: assert reset (R220, R221). -/
  | reset
  deriving DecidableEq, Repr

/-- A value a host read returned (`rd NAME -> v`, R86): a register word or a memory byte (R69). -/
inductive ReadValue where
  | word (v : Word)
  | byte (v : Byte)
  deriving DecidableEq, Repr

/-- The state of one NXB instance (R20), with the host's actions still to come and the values its reads returned. -/
structure State where
  /-- ARG0 (R22). -/
  arg0 : Word
  /-- ARG1 (R22). -/
  arg1 : Word
  /-- ARG2 (R22). -/
  arg2 : Word
  /-- STATUS.ERR, bits 3:0 of STATUS (R23, R24). -/
  err : ErrCode
  /-- STATUS.ROM_VALID, bit 8 (R23). -/
  romValid : Bool
  /-- STATUS.TR_VALID, bit 9 (R23). -/
  trValid : Bool
  /-- STATUS.TILES_VALID, bit 10 (R23). -/
  tilesValid : Bool
  /-- STATUS.PAL_VALID, bit 11 (R23). -/
  palValid : Bool
  /-- ERR_SEG (R27). -/
  errSeg : Segment
  /-- ERR_EXPECTED (R27). -/
  errExpected : Word
  /-- ERR_ACTUAL (R27). -/
  errActual : Word
  /-- Bit 0 of PROBE_RESULT (R29). -/
  probeResult : Bool
  /-- The ROM group (R30, R33). -/
  rom : RomGroup
  /-- The TR group (R35). -/
  tr : TrGroup
  /-- TILE_COUNT (R37). -/
  tileCount : Word
  /-- TMEM (R64). -/
  tmem : Mem
  /-- The PAL group (R38). -/
  pal : PalGroup
  /-- IN (R61): the bytes written since reset. -/
  inMem : Mem
  /-- The model's own field: the host's accesses still to come, next first (log entry 4). -/
  pending : List HostAction
  /-- The model's own field: what the host's reads returned, newest first (log entry 5). -/
  reads : List ReadValue
  deriving DecidableEq, Repr

/-- Why a step stops. NXB raises none of these: it would return an UNSPECIFIED value (R213), and the model stops instead. -/
inductive Fault where
  /-- A read of an IN byte not written since reset, by the host (`rdbIn`) or by PARSE, PROBE, DECODE_TILE or EXTRACT_TILES
  (93_implementation_defined.md I4). Safe: the model stops where the hardware goes on with an unspecified byte. -/
  | unwrittenIn (a : Nat)
  /-- A host read of a member of a result group while the group's VALID bit is 0 (R26, I3), raised by `rd` and `rdbTmem`. Safe:
  the model stops where the hardware returns an unspecified word. -/
  | invalidGroup (g : Group)
  /-- A host read of a TMEM byte at or above 80 × TILE_COUNT (R65, I5), raised by `rdbTmem`. Safe: the model stops where the
  hardware returns a stale or reset byte. -/
  | staleTmem (a : Nat)
  /-- A read of a TMEM byte below 80 × TILE_COUNT that no EXTRACT_TILES has written, raised by LOAD_TILE and `rdbTmem`. No state
  that meets the model's invariant reaches it. Safe: the model stops. -/
  | unwrittenTmem (a : Nat)
  deriving DecidableEq, Repr

/-- Why a command has no meaning. Every command has one, so no step of this model is refused. -/
inductive Refusal where
  /-- Raised by an arm of `exec` whose command has no meaning yet. Safe: the model stops. -/
  | notModelled (mnemonic : String)
  deriving DecidableEq, Repr

/-- The ROM group right after reset: UNSPECIFIED by R220, held as 0 (DESIGN CHOICE, log entry 6). -/
def RomGroup.reset : RomGroup :=
  { hdrW0 := 0, hdrW1 := 0, hdrW2 := 0, hdrW3 := 0, trnOff := 0, trnLen := 0, prgOff := 0, prgLen := 0, chrOff := 0, chrLen := 0 }

/-- The TR group right after reset: UNSPECIFIED by R220, held as 0 (DESIGN CHOICE, log entry 6). -/
def TrGroup.reset : TrGroup :=
  { index := 0, rawW0 := 0, rawW1 := 0, rawW2 := 0, rawW3 := 0, row0 := 0, row1 := 0, row2 := 0, row3 := 0, row4 := 0, row5 := 0,
    row6 := 0, row7 := 0 }

/-- The PAL group right after reset: UNSPECIFIED by R220, held as 0 (DESIGN CHOICE, log entry 6). -/
def PalGroup.reset : PalGroup := { pal0 := 0, pal1 := 0, pal2 := 0, pal3 := 0 }

/-- The state right after reset (R220), with no host access to come. -/
def State.reset : State :=
  { arg0 := 0, arg1 := 0, arg2 := 0
    err := .ok, romValid := false, trValid := false, tilesValid := false, palValid := false
    errSeg := .none, errExpected := 0, errActual := 0
    probeResult := false
    rom := RomGroup.reset, tr := TrGroup.reset, tileCount := 0, tmem := [], pal := PalGroup.reset
    inMem := []
    pending := [], reads := [] }

end Sys2Proof.Machine
end

