-- ==== Sys2Proof/Machine/Ops.lean ====
section
/-! DEFINITION. The named operations over memory and registers: reading and writing bytes, the region check, packing bytes into
words, raising an error and finishing (R11, R61 to R64, R201, R204), writing a result group, and the host's own fields. -/

namespace Sys2Proof.Machine

/-- The canonical form of a memory: addresses strictly rising. (An unlisted address has no value, so no entry can equal it.) -/
abbrev Mem.wf (m : Mem) : Prop := m.Pairwise (fun c d => c.1 < d.1)

/-- The byte at an address, `none` where nothing was written since reset. -/
def Mem.read : Mem → Nat → Option Byte
  | [], _ => none
  | (b, v) :: m, a => if a = b then some v else Mem.read m a

/-- Write one byte, keeping the canonical form. -/
def Mem.write : Mem → Nat → Byte → Mem
  | [], a, v => [(a, v)]
  | (b, w) :: m, a, v =>
    if a < b then (a, v) :: (b, w) :: m
    else if a = b then (a, v) :: m
    else (b, w) :: Mem.write m a v

/-- `MemRead(IN, a, n)` (R11): the n bytes from address `a` up, or the first address among them that has no value. -/
def readBytes (m : Mem) : Nat → Nat → Except Nat (List Byte)
  | _, 0 => .ok []
  | a, n + 1 =>
    match m.read a with
    | none => .error a
    | some b =>
      match readBytes m (a + 1) n with
      | .error e => .error e
      | .ok bs => .ok (b :: bs)

/-- `MemWrite(TMEM, a, n, s)` (R11): write a byte sequence from address `a` up, in order. -/
def writeBytes (m : Mem) (a : Nat) : List Byte → Mem
  | [] => m
  | b :: bs => writeBytes (m.write a b) (a + 1) bs

/-- Element `i` of a byte sequence that was read from memory. -/
def byteAt (bs : List Byte) (i : Nat) : Byte := bs.getD i 0

/-- `n ≤ IN_SIZE`. The least size is asked first, so that the answer for a small `n` does not wait on the parameter. -/
def withinIn (n : Nat) : Bool := decide (n ≤ Config.inMin) || decide (n ≤ Config.inSize)

/-- `n ≤ 80 × TMEM_TILES`, asked in the same way. -/
def withinTmem (n : Nat) : Bool := decide (n ≤ 80 * (Config.inMin / 16)) || decide (n ≤ Config.tmemSize)

/-- The region check of R63: exact, with no wrap-around. -/
def admitted (a n : Nat) : Bool := withinIn (a + n)

/-- Assigning the exact number `n` to the 32-bit register at byte offset `reg` (R10, R11). At 2^32 or more the spec states no
value: a free value (log entry 11). -/
def regWord (reg n : Nat) : Word := if n < 2 ^ 32 then BitVec.ofNat 32 n else Config.regOverflow reg n

/-- Four bytes as a register word, little-endian: the first byte in bits 7:0 (R30, R35, R66). -/
def packWord (b0 b1 b2 b3 : Byte) : Word :=
  b0.setWidth 32 ||| (b1.setWidth 32 <<< 8) ||| (b2.setWidth 32 <<< 16) ||| (b3.setWidth 32 <<< 24)

/-- Word `j` of a sequence of 16 bytes: bytes 4j to 4j+3 (R30, R35). -/
def packedWord (bs : List Byte) (j : Nat) : Word :=
  packWord (byteAt bs (4 * j)) (byteAt bs (4 * j + 1)) (byteAt bs (4 * j + 2)) (byteAt bs (4 * j + 3))

/-- Byte `i` (0..3) of a register word, the inverse of the packing. -/
def wordByte (w : Word) (i : Nat) : Byte := w.extractLsb' (8 * i) 8

/-- The VALID bit of a result group (R25). -/
def State.groupValid (s : State) : Group → Bool
  | .rom => s.romValid
  | .tr => s.trValid
  | .tiles => s.tilesValid
  | .pal => s.palValid

/-- `raise Error(...)` (R11): the error recording of R201 and the invalidation of R204. `g` is the group the command would have
written, `none` for ILLEGAL_COMMAND (R205). Nothing else changes (R203), and control moves nowhere (R209). -/
def State.raise (e : ErrRecord) (g : Option Group) (s : State) : State :=
  { s with
    err := e.code, errSeg := e.seg, errExpected := e.expected, errActual := e.actual
    romValid := s.romValid && decide (g ≠ some .rom)
    trValid := s.trValid && decide (g ≠ some .tr)
    tilesValid := s.tilesValid && decide (g ≠ some .tiles)
    palValid := s.palValid && decide (g ≠ some .pal) }

/-- `finish` (R11): STATUS.ERR is OK and the ERR registers are 0. -/
def State.finish (s : State) : State :=
  { s with err := .ok, errSeg := .none, errExpected := 0, errActual := 0 }

/-- Write the ROM group and set its VALID bit (R25). -/
def State.withRom (r : RomGroup) (s : State) : State := { s with rom := r, romValid := true }

/-- Write the TR group and set its VALID bit (R25). -/
def State.withTr (t : TrGroup) (s : State) : State := { s with tr := t, trValid := true }

/-- Write the TILES group and set its VALID bit (R25). -/
def State.withTiles (count : Word) (m : Mem) (s : State) : State := { s with tileCount := count, tmem := m, tilesValid := true }

/-- Write the PAL group and set its VALID bit (R25). -/
def State.withPal (p : PalGroup) (s : State) : State := { s with pal := p, palValid := true }

/-- Write PROBE_RESULT bit 0 (R29). -/
def State.withProbe (r : Bool) (s : State) : State := { s with probeResult := r }

/-- Write ARG0 (R22). -/
def State.withArg0 (v : Word) (s : State) : State := { s with arg0 := v }

/-- Write ARG1 (R22). -/
def State.withArg1 (v : Word) (s : State) : State := { s with arg1 := v }

/-- Write ARG2 (R22). -/
def State.withArg2 (v : Word) (s : State) : State := { s with arg2 := v }

/-- Replace the contents of IN (R61). -/
def State.withIn (m : Mem) (s : State) : State := { s with inMem := m }

/-- Replace the host's accesses still to come. -/
def State.withPending (p : List HostAction) (s : State) : State := { s with pending := p }

/-- Record what a host read returned. -/
def State.withRead (v : ReadValue) (s : State) : State := { s with reads := v :: s.reads }

/-- Reset (R220): NXB's state as after power-on (R221). The host's accesses still to come and its read values are the host's own. -/
def State.afterReset (s : State) : State := { State.reset with pending := s.pending, reads := s.reads }

/-- FORMAT_ERROR (R200). -/
def formatError : ErrRecord := { code := .formatError, seg := .none, expected := 0, actual := 0 }

/-- INCOMPLETE_DATA, naming the segment and the two byte counts (R200, R201). -/
def incompleteData (seg : Segment) (expected actual : Nat) : ErrRecord :=
  { code := .incompleteData, seg := seg, expected := BitVec.ofNat 32 expected, actual := BitVec.ofNat 32 actual }

/-- ARGUMENT_ERROR (R200). -/
def argumentError : ErrRecord := { code := .argumentError, seg := .none, expected := 0, actual := 0 }

/-- ILLEGAL_COMMAND (R205). -/
def illegalCommand : ErrRecord := { code := .illegalCommand, seg := .none, expected := 0, actual := 0 }

end Sys2Proof.Machine
end

