-- ==== Sys2Proof/Machine/Flags.lean ====
section
/-! DEFINITION. STATUS as the host reads it (R23, R24), the header-derived registers (R102 to R108) and the tile queries (R145). -/

namespace Sys2Proof.Machine

/-- The numeric code of an outcome (R24). -/
def ErrCode.code : ErrCode → BitVec 4
  | .ok => 0
  | .formatError => 1
  | .incompleteData => 2
  | .argumentError => 3
  | .notFound => 4
  | .illegalCommand => 5

/-- The value of ERR_SEG (R27). -/
def Segment.code : Segment → Word
  | .none => 0
  | .header => 1
  | .trainer => 2
  | .program => 3
  | .graphics => 4

/-- A Bool as a word, 0 or 1. -/
def bitWord (b : Bool) : Word := if b then 1 else 0

/-- STATUS (R23). Bits 7:4 and 31:12 read 0. -/
def State.statusWord (s : State) : Word :=
  s.err.code.setWidth 32 ||| (bitWord s.romValid <<< 8) ||| (bitWord s.trValid <<< 9) ||| (bitWord s.tilesValid <<< 10) |||
    (bitWord s.palValid <<< 11)

/-- HDR_Wj (R30). -/
def RomGroup.hdrWord (r : RomGroup) (j : Nat) : Word :=
  match j with
  | 0 => r.hdrW0
  | 1 => r.hdrW1
  | 2 => r.hdrW2
  | _ => r.hdrW3

/-- The header bytes H[0..15] stored in HDR_W0..HDR_W3 (R30). -/
def RomGroup.header (r : RomGroup) (i : Nat) : Byte := wordByte (r.hdrWord (i / 4)) (i % 4)

/-- MAGIC_OK (R102). -/
def magicOk (H : Nat → Byte) : Bool := H 0 == 0x4E && H 1 == 0x45 && H 2 == 0x53 && H 3 == 0x1A

/-- MAPPER (R103). -/
def mapperNumber (H : Nat → Byte) : Byte := (H 7 &&& 0xF0) ||| (H 6 >>> 4)

/-- MIRRORING (R104): bit 3 of flags6 takes precedence over bit 0. -/
def mirroringOf (H : Nat → Byte) : Mirroring :=
  if (H 6).getLsbD 3 then .fourScreen else if (H 6).getLsbD 0 then .vertical else .horizontal

/-- The numeric encoding of MIRRORING (R104). -/
def Mirroring.code : Mirroring → Word
  | .horizontal => 0
  | .vertical => 1
  | .fourScreen => 2

/-- BATTERY (R105). -/
def hasBattery (H : Nat → Byte) : Bool := (H 6).getLsbD 1

/-- TRAINER (R105). -/
def hasTrainer (H : Nat → Byte) : Bool := (H 6).getLsbD 2

/-- NES2 (R106). -/
def isNes2 (H : Nat → Byte) : Bool := (H 7 >>> 2) &&& 0b11 == 0b10

/-- HDR_FLAGS: bit 0 BATTERY, bit 1 TRAINER, bit 2 NES2, bit 3 MAGIC_OK (R32). -/
def hdrFlags (H : Nat → Byte) : Word :=
  bitWord (hasBattery H) ||| (bitWord (hasTrainer H) <<< 1) ||| (bitWord (isNes2 H) <<< 2) ||| (bitWord (magicOk H) <<< 3)

/-- TRAINER_SIZE_BYTES (R105). -/
def trainerSizeBytes (H : Nat → Byte) : Nat := if hasTrainer H then 512 else 0

/-- PRG_SIZE_BYTES (R107). -/
def prgSizeBytes (H : Nat → Byte) : Nat := (H 4).toNat * 16384

/-- CHR_SIZE_BYTES (R107). -/
def chrSizeBytes (H : Nat → Byte) : Nat := (H 5).toNat * 8192

/-- TOTAL_SIZE (R108). -/
def totalSize (H : Nat → Byte) : Nat := 16 + trainerSizeBytes H + prgSizeBytes H + chrSizeBytes H

/-- TR_ROWy (R35). -/
def TrGroup.row (t : TrGroup) (y : Nat) : Word :=
  match y with
  | 0 => t.row0
  | 1 => t.row1
  | 2 => t.row2
  | 3 => t.row3
  | 4 => t.row4
  | 5 => t.row5
  | 6 => t.row6
  | _ => t.row7

/-- TR_RAW_Wj (R35). -/
def TrGroup.rawWord (t : TrGroup) (j : Nat) : Word :=
  match j with
  | 0 => t.rawW0
  | 1 => t.rawW1
  | 2 => t.rawW2
  | _ => t.rawW3

/-- The raw bytes B[0..15] stored in TR_RAW_W0..TR_RAW_W3 (R35). -/
def TrGroup.raw (t : TrGroup) (i : Nat) : Byte := wordByte (t.rawWord (i / 4)) (i % 4)

/-- Pixel (y,x) of TR: bits [2x+1:2x] of TR_ROWy (R35). -/
def TrGroup.pixel (t : TrGroup) (y x : Nat) : Pixel := (t.row y).extractLsb' (2 * x) 2

/-- MASK of R145: bit v set iff some of the 64 pixels has value v. -/
def TrGroup.mask (t : TrGroup) : BitVec 4 :=
  (List.range 64).foldl (fun m i => m ||| (1 <<< (t.pixel (i / 8) (i % 8)).toNat)) 0

/-- popcount (R10) of a 4-bit mask. -/
def popcount (m : BitVec 4) : Nat := (List.range 4).countP (fun i => m.getLsbD i)

/-- TR_QUERY (R145): MASK in bits 3:0, NDIST in bits 6:4, EMPTY in bit 8. -/
def TrGroup.query (t : TrGroup) : Word :=
  t.mask.setWidth 32 ||| (BitVec.ofNat 32 (popcount t.mask) <<< 4) ||| (bitWord (t.mask == 0b0001) <<< 8)

/-- PALn (R38). -/
def PalGroup.slot (p : PalGroup) (n : Nat) : Word :=
  match n with
  | 0 => p.pal0
  | 1 => p.pal1
  | 2 => p.pal2
  | _ => p.pal3

end Sys2Proof.Machine
end

