-- ==== Sys2Proof/Machine/Operands.lean ====
section
/-! DEFINITION. The operands of the six commands, read from ARG0, ARG1 and ARG2 as they stand at the CMD write (R82). -/

namespace Sys2Proof.Machine

/-- `base` of PARSE and PROBE, `addr` of DECODE_TILE and EXTRACT_TILES: ARG0, unsigned 32 (R82). -/
def opBase (s : State) : Nat := s.arg0.toNat

/-- `avail` of PARSE and PROBE, `len` of DECODE_TILE and EXTRACT_TILES: ARG1, unsigned 32 (R82). -/
def opAvail (s : State) : Nat := s.arg1.toNat

/-- EXT_OK of PROBE: ARG2 bit 0; bits 31:1 are ignored (R82). -/
def opExtOk (s : State) : Bool := s.arg2.getLsbD 0

/-- `index` of DECODE_TILE: ARG2, unsigned 32 (R82). -/
def opIndex (s : State) : Word := s.arg2

/-- `k` of LOAD_TILE: ARG0, unsigned 32 (R82). -/
def opTile (s : State) : Nat := s.arg0.toNat

/-- `paletteIndex` of RESOLVE: ARG0 as a two's-complement integer (R82, R171). -/
def opPaletteIndex (s : State) : Int := s.arg0.toInt

/-- T of RESOLVE: ARG1 bit 0; bits 31:1 are ignored (R82, R171). -/
def opTransparent (s : State) : Bool := s.arg1.getLsbD 0

end Sys2Proof.Machine
end

