-- ==== Sys2Proof/Machine/ContainerParser.lean ====
section
/-! DEFINITION. Unit CP: PARSE (R100 to R110) and PROBE (R111), and the segments a parsed container denotes (R77, R109). -/

namespace Sys2Proof.Machine

/-- The error of a source that supplies fewer than 16 bytes, by P_SHORT_HEADER (R100). -/
def shortHeaderError (avail : Nat) : ErrRecord :=
  match Config.shortHeader with
  | .formatError => formatError
  | .incompleteData => incompleteData .header 16 avail

/-- PARSE's checks after the header is read, in the order of R202: magic, trainer, program, graphics. -/
def containerError (H : Nat → Byte) (avail : Nat) : Option ErrRecord :=
  if !magicOk H then some formatError
  else
    let T := trainerSizeBytes H
    let P := prgSizeBytes H
    let C := chrSizeBytes H
    let rest := avail - 16
    if 0 < T ∧ rest < T then some (incompleteData .trainer T rest)
    else if rest - T < P then some (incompleteData .program P (rest - T))
    else if rest - T - P < C then some (incompleteData .graphics C (rest - T - P))
    else none

/-- The ROM group a successful PARSE at `base` writes (R100, R109), from the 16 header bytes. -/
def romOf (base : Nat) (bs : List Byte) : RomGroup :=
  let T := trainerSizeBytes (byteAt bs)
  let P := prgSizeBytes (byteAt bs)
  let C := chrSizeBytes (byteAt bs)
  { hdrW0 := packedWord bs 0, hdrW1 := packedWord bs 1, hdrW2 := packedWord bs 2, hdrW3 := packedWord bs 3
    trnOff := regWord 0x080 (base + 16), trnLen := regWord 0x084 T
    prgOff := regWord 0x088 (base + 16 + T), prgLen := regWord 0x08C P
    chrOff := regWord 0x090 (base + 16 + T + P), chrLen := regWord 0x094 C }

/-- PARSE (R100): region check, 16-byte check, then the header's own checks; only IN[base .. base+15] is read. -/
def execParse (s : State) : Host.Outcome State Fault Refusal :=
  let base := opBase s
  let avail := opAvail s
  if !admitted base avail then .next (s.raise argumentError (some .rom))
  else if avail < 16 then .next (s.raise (shortHeaderError avail) (some .rom))
  else
    match readBytes s.inMem base 16 with
    | .error a => .fault (.unwrittenIn a)
    | .ok bs =>
      match containerError (byteAt bs) avail with
      | some e => .next (s.raise e (some .rom))
      | none => .next (s.withRom (romOf base bs)).finish

/-- PROBE (R111): PROBE_RESULT is 1 iff the region is admitted, EXT_OK is set, the source is long enough and the first four bytes
are the magic; those four bytes are read only when the other conditions hold. STATUS.ERR is always OK. -/
def execProbe (s : State) : Host.Outcome State Fault Refusal :=
  let base := opBase s
  let avail := opAvail s
  if admitted base avail && opExtOk s && decide (Config.probeMinLen ≤ avail) then
    match readBytes s.inMem base 4 with
    | .error a => .fault (.unwrittenIn a)
    | .ok bs => .next (s.withProbe (magicOk (byteAt bs))).finish
  else .next (s.withProbe false).finish

/-- The bytes a segment descriptor denotes, as IN stands now (R77). While ROM_VALID is 0 the descriptors are UNSPECIFIED (R26), and
this answers from the ones held (DESIGN CHOICE, log entry 19). -/
def segmentBytes (s : State) (off len : Word) : Except Nat (List Byte) := readBytes s.inMem off.toNat len.toNat

/-- The trainer segment (R109). -/
def trainerSegment (s : State) : Except Nat (List Byte) := segmentBytes s s.rom.trnOff s.rom.trnLen

/-- The program segment (R109). -/
def programSegment (s : State) : Except Nat (List Byte) := segmentBytes s s.rom.prgOff s.rom.prgLen

/-- The graphics segment (R109). -/
def graphicsSegment (s : State) : Except Nat (List Byte) := segmentBytes s s.rom.chrOff s.rom.chrLen

end Sys2Proof.Machine
end

