-- ==== Sys2Proof/Machine/PaletteResolver.lean ====
section
/-! DEFINITION. Unit PR: RESOLVE (R171 to R176), and the colour of a pixel (R178, R179). -/

namespace Sys2Proof.Machine

/-- The transparent marker word (R34). -/
def transparentMarker : Word := 0x01000000

/-- The colour word of an opaque table colour: bits 31:24 are 0 (R34). -/
def opaqueWord (c : Colour) : Word := c.setWidth 32

/-- The curated record a non-zero palette index selects, as a value of `Fin 9` (record p is p−1): 1..9 select themselves, every
other index selects record 1 (R173, R174). -/
def recordOf (i : Int) : Fin 9 :=
  if h : 1 ≤ i ∧ i ≤ 9 then ⟨(i - 1).toNat, by omega⟩ else 0

/-- Slot `n` of the palette before the transparency flag is looked at (R171). -/
def opaqueSlot (i : Int) (n : Fin 4) : Word :=
  if i = 0 then opaqueWord (Config.grey n) else opaqueWord (Config.ref (Config.preset (recordOf i) n))

/-- The resolved palette (R171, R172, R175). -/
def resolvePalette (i : Int) (t : Bool) : PalGroup :=
  { pal0 := if t then transparentMarker else opaqueSlot i 0
    pal1 := opaqueSlot i 1, pal2 := opaqueSlot i 2, pal3 := opaqueSlot i 3 }

/-- RESOLVE (R171): never an error. -/
def execResolve (s : State) : Host.Outcome State Fault Refusal :=
  .next (s.withPal (resolvePalette (opPaletteIndex s) (opTransparent s))).finish

/-- PALv for a pixel value v: the lookup is the identity on slots (R178, R179). -/
def PalGroup.colour (p : PalGroup) (v : Pixel) : Word := p.slot v.toNat

/-- The colour of pixel (y,x) of TR, as a consumer of NXB's results takes it (R178). R178 names no VALID bit: while PAL_VALID or
TR_VALID is 0 the colour is UNSPECIFIED (R26), and the lookup answers from the words held (DESIGN CHOICE, log entry 19). -/
def trColour (s : State) (y x : Nat) : Word := s.pal.colour (s.tr.pixel y x)

/-- PAL[b] for a pixel byte b of TMEM (R178). A pixel byte is always in 0..3 (R64); for any other byte there is no PAL word. -/
def PalGroup.colourOfByte (p : PalGroup) (b : Byte) : Option Word := if b.toNat < 4 then some (p.slot b.toNat) else none

/-- The colour of TMEM pixel byte 80k+16+8y+x (R178); `none` where that byte has no value (log entry 18). While PAL_VALID or
TILES_VALID is 0, or k is TILE_COUNT or more, the colour is UNSPECIFIED (R26, R65, I5), and the lookup answers from the words and the
byte held, stale ones included (DESIGN CHOICE, log entry 19). -/
def tmemColour (s : State) (k y x : Nat) : Option Word := (s.tmem.read (80 * k + 16 + 8 * y + x)).bind s.pal.colourOfByte

end Sys2Proof.Machine
end

