-- ==== Sys2Proof/Machine/TileDecoder.lean ====
section
/-! DEFINITION. Unit TD: decode16 and its inverse (R140, R141, R146), DECODE_TILE (R142), EXTRACT_TILES (R143) and LOAD_TILE (R144). -/

namespace Sys2Proof.Machine

/-- Pixel (y,x) of decode16 (R140): the high plane's bit 7−x of row y above the low plane's. -/
def decodePixel (B : Nat → Byte) (y x : Nat) : Pixel :=
  ((BitVec.ofBool ((B (y + 8)).getLsbD (7 - x))).setWidth 2 <<< 1) ||| (BitVec.ofBool ((B y).getLsbD (7 - x))).setWidth 2

/-- The inverse of decode16 (R146): raw byte `i` of the block whose grid is `pix`, a sum over the eight columns. -/
def encodeByte (pix : Nat → Nat → Pixel) (i : Nat) : Byte :=
  BitVec.ofNat 8 (((List.range 8).map (fun x =>
    (if i < 8 then (pix i x).toNat % 2 else (pix (i - 8) x).toNat / 2) <<< (7 - x))).sum)

/-- Row packing: the sum of the row's eight values, column x shifted left by 2x (R142, R144). -/
def packRow (v : Nat → Nat) : Word := BitVec.ofNat 32 (((List.range 8).map (fun x => v x <<< (2 * x))).sum)

/-- The TR group for 16 raw bytes and a grid of pixel numbers (R142, R144). -/
def trOf (index : Word) (bs : List Byte) (v : Nat → Nat → Nat) : TrGroup :=
  { index := index
    rawW0 := packedWord bs 0, rawW1 := packedWord bs 1, rawW2 := packedWord bs 2, rawW3 := packedWord bs 3
    row0 := packRow (v 0), row1 := packRow (v 1), row2 := packRow (v 2), row3 := packRow (v 3)
    row4 := packRow (v 4), row5 := packRow (v 5), row6 := packRow (v 6), row7 := packRow (v 7) }

/-- The 80-byte record of a tile in TMEM: 16 raw bytes, then pixel (y,x) at 16+8y+x (R64). -/
def tileRecord (bs : List Byte) : List Byte :=
  bs ++ (List.range 64).map (fun i => (decodePixel (byteAt bs) (i / 8) (i % 8)).setWidth 8)

/-- The loop of EXTRACT_TILES (R143): records 0 .. n−1 written in order, or the first IN address read that has no value. -/
def extractRecords (inMem : Mem) (addr : Nat) (tmem : Mem) : Nat → Except Nat Mem
  | 0 => .ok tmem
  | k + 1 =>
    match extractRecords inMem addr tmem k with
    | .error a => .error a
    | .ok m =>
      match readBytes inMem (addr + 16 * k) 16 with
      | .error a => .error a
      | .ok bs => .ok (writeBytes m (80 * k) (tileRecord bs))

/-- DECODE_TILE (R142): only the first 16 bytes of the region are read. -/
def execDecodeTile (s : State) : Host.Outcome State Fault Refusal :=
  let addr := opBase s
  let len := opAvail s
  if !admitted addr len then .next (s.raise argumentError (some .tr))
  else if len < 16 then .next (s.raise argumentError (some .tr))
  else
    match readBytes s.inMem addr 16 with
    | .error a => .fault (.unwrittenIn a)
    | .ok bs => .next (s.withTr (trOf (opIndex s) bs (fun y x => (decodePixel (byteAt bs) y x).toNat))).finish

/-- EXTRACT_TILES (R143): floor(len/16) records; a remainder is neither read nor decoded. -/
def execExtractTiles (s : State) : Host.Outcome State Fault Refusal :=
  let addr := opBase s
  let len := opAvail s
  if !admitted addr len then .next (s.raise argumentError (some .tiles))
  else
    match extractRecords s.inMem addr s.tmem (len / 16) with
    | .error a => .fault (.unwrittenIn a)
    | .ok m => .next (s.withTiles (BitVec.ofNat 32 (len / 16)) m).finish

/-- LOAD_TILE (R144): record k of TMEM into TR, the rows from the stored pixel bytes. -/
def execLoadTile (s : State) : Host.Outcome State Fault Refusal :=
  let k := opTile s
  if !s.tilesValid then .next (s.raise argumentError (some .tr))
  else if s.tileCount.toNat ≤ k then .next (s.raise argumentError (some .tr))
  else
    match readBytes s.tmem (80 * k) 80 with
    | .error a => .fault (.unwrittenTmem a)
    | .ok bs => .next (s.withTr (trOf s.arg0 bs (fun y x => (byteAt bs (16 + 8 * y + x)).toNat))).finish

end Sys2Proof.Machine
end

