-- ==== Sys2Proof/Machine/Dispatch.lean ====
section
/-! DEFINITION. The meaning of each command (R81), one arm per constructor. -/

namespace Sys2Proof.Machine

def exec (i : Instr) (s : State) : Host.Outcome State Fault Refusal :=
  match i with
  | .parse => Sys2Proof.Machine.execParse s
  | .probe => Sys2Proof.Machine.execProbe s
  | .decodeTile => Sys2Proof.Machine.execDecodeTile s
  | .extractTiles => Sys2Proof.Machine.execExtractTiles s
  | .loadTile => Sys2Proof.Machine.execLoadTile s
  | .resolve => Sys2Proof.Machine.execResolve s

end Sys2Proof.Machine
end

