-- ==== Sys2Proof/Machine/RegisterMap.lean ====
section
/-! DEFINITION. The register window (R39): which register stands at a word, its group (R25) and the value a read gives (R40). -/

namespace Sys2Proof.Machine

/-- The control registers of the map (R39), by byte offset. -/
def controlRegs : List (Nat × Reg) :=
  [(0x000, .cmd), (0x004, .status), (0x008, .arg0), (0x00C, .arg1), (0x010, .arg2), (0x014, .errSeg), (0x018, .errExpected),
   (0x01C, .errActual), (0x020, .probeResult)]

/-- The ROM group's registers (R39). -/
def romRegs : List (Nat × Reg) :=
  [(0x040, .hdrW 0), (0x044, .hdrW 1), (0x048, .hdrW 2), (0x04C, .hdrW 3), (0x050, .mapper), (0x054, .mirroring), (0x058, .hdrFlags),
   (0x05C, .prgUnits), (0x060, .chrUnits), (0x064, .prgSizeBytes), (0x068, .chrSizeBytes), (0x06C, .trainerSizeBytes),
   (0x070, .totalSize), (0x080, .trnOff), (0x084, .trnLen), (0x088, .prgOff), (0x08C, .prgLen), (0x090, .chrOff), (0x094, .chrLen)]

/-- The TR group's registers (R39). -/
def trRegs : List (Nat × Reg) :=
  [(0x100, .trIndex), (0x104, .trQuery), (0x110, .trRaw 0), (0x114, .trRaw 1), (0x118, .trRaw 2), (0x11C, .trRaw 3),
   (0x120, .trRow 0), (0x124, .trRow 1), (0x128, .trRow 2), (0x12C, .trRow 3), (0x130, .trRow 4), (0x134, .trRow 5),
   (0x138, .trRow 6), (0x13C, .trRow 7)]

/-- The registers of the TILES and PAL groups (R39). -/
def tilesPalRegs : List (Nat × Reg) :=
  [(0x140, .tileCount), (0x180, .pal 0), (0x184, .pal 1), (0x188, .pal 2), (0x18C, .pal 3)]

/-- The register map (R39). -/
def registerMap : List (Nat × Reg) := controlRegs ++ romRegs ++ trRegs ++ tilesPalRegs

/-- The register at word `o` of the window, that is at byte offset 4·o; `none` where the offset is unmapped (R39). -/
def regAt (o : BitVec 10) : Option Reg := registerMap.lookup (4 * o.toNat)

/-- The byte offset of a register, by the formulas of 10_state.md (R21 to R38). -/
def Reg.offset : Reg → Nat
  | .cmd => 0x000
  | .status => 0x004
  | .arg0 => 0x008
  | .arg1 => 0x00C
  | .arg2 => 0x010
  | .errSeg => 0x014
  | .errExpected => 0x018
  | .errActual => 0x01C
  | .probeResult => 0x020
  | .hdrW j => 0x040 + 4 * j.val
  | .mapper => 0x050
  | .mirroring => 0x054
  | .hdrFlags => 0x058
  | .prgUnits => 0x05C
  | .chrUnits => 0x060
  | .prgSizeBytes => 0x064
  | .chrSizeBytes => 0x068
  | .trainerSizeBytes => 0x06C
  | .totalSize => 0x070
  | .trnOff => 0x080
  | .trnLen => 0x084
  | .prgOff => 0x088
  | .prgLen => 0x08C
  | .chrOff => 0x090
  | .chrLen => 0x094
  | .trIndex => 0x100
  | .trQuery => 0x104
  | .trRaw j => 0x110 + 4 * j.val
  | .trRow y => 0x120 + 4 * y.val
  | .tileCount => 0x140
  | .pal n => 0x180 + 4 * n.val

/-- The word number of a register: its byte offset divided by 4 (R68). -/
def Reg.word (r : Reg) : BitVec 10 := BitVec.ofNat 10 (r.offset / 4)

/-- The result group a register is a member of (R25); `none` for the control registers, which are always readable. -/
def Reg.group : Reg → Option Group
  | .cmd | .status | .arg0 | .arg1 | .arg2 | .errSeg | .errExpected | .errActual | .probeResult => none
  | .hdrW _ | .mapper | .mirroring | .hdrFlags | .prgUnits | .chrUnits | .prgSizeBytes | .chrSizeBytes | .trainerSizeBytes
  | .totalSize | .trnOff | .trnLen | .prgOff | .prgLen | .chrOff | .chrLen => some .rom
  | .trIndex | .trQuery | .trRaw _ | .trRow _ => some .tr
  | .tileCount => some .tiles
  | .pal _ => some .pal

/-- What a register reads as when it is readable (R21 to R38). -/
def regValue (s : State) : Reg → Word
  | .cmd => 0
  | .status => s.statusWord
  | .arg0 => s.arg0
  | .arg1 => s.arg1
  | .arg2 => s.arg2
  | .errSeg => s.errSeg.code
  | .errExpected => s.errExpected
  | .errActual => s.errActual
  | .probeResult => bitWord s.probeResult
  | .hdrW j => s.rom.hdrWord j.val
  | .mapper => (mapperNumber s.rom.header).setWidth 32
  | .mirroring => (mirroringOf s.rom.header).code
  | .hdrFlags => Sys2Proof.Machine.hdrFlags s.rom.header
  | .prgUnits => (s.rom.header 4).setWidth 32
  | .chrUnits => (s.rom.header 5).setWidth 32
  | .prgSizeBytes => BitVec.ofNat 32 (Sys2Proof.Machine.prgSizeBytes s.rom.header)
  | .chrSizeBytes => BitVec.ofNat 32 (Sys2Proof.Machine.chrSizeBytes s.rom.header)
  | .trainerSizeBytes => BitVec.ofNat 32 (Sys2Proof.Machine.trainerSizeBytes s.rom.header)
  | .totalSize => BitVec.ofNat 32 (Sys2Proof.Machine.totalSize s.rom.header)
  | .trnOff => s.rom.trnOff
  | .trnLen => s.rom.trnLen
  | .prgOff => s.rom.prgOff
  | .prgLen => s.rom.prgLen
  | .chrOff => s.rom.chrOff
  | .chrLen => s.rom.chrLen
  | .trIndex => s.tr.index
  | .trQuery => s.tr.query
  | .trRaw j => s.tr.rawWord j.val
  | .trRow y => s.tr.row y.val
  | .tileCount => s.tileCount
  | .pal n => s.pal.slot n.val

end Sys2Proof.Machine
end

