-- ==== Sys2Proof/Machine/HostAccess.lean ====
section
/-! DEFINITION. The host's accesses (R78): one step of the model is one of them. A write to CMD issues a command (R84). -/

namespace Sys2Proof.Machine

/-- A write of `w` to CMD (R84): decode, then the command's meaning, or ILLEGAL_COMMAND (R83, R205). -/
def issueCommand (w : Word) (s : State) : Host.Outcome State Fault Refusal :=
  match decode w with
  | some i => exec i s
  | none => .next (s.raise illegalCommand none)

/-- A write of `v` to register `r`: CMD and ARG0..ARG2 take it, every other register ignores it (R21, R22, R23, R40). -/
def writeReg (r : Reg) (v : Word) (s : State) : Host.Outcome State Fault Refusal :=
  match r with
  | .cmd => issueCommand v s
  | .arg0 => .next (s.withArg0 v)
  | .arg1 => .next (s.withArg1 v)
  | .arg2 => .next (s.withArg2 v)
  | _ => .next s

/-- A register write at word `o` (R39); at an unmapped offset it has no effect (R40). -/
def hostWrite (o : BitVec 10) (v : Word) (s : State) : Host.Outcome State Fault Refusal :=
  match regAt o with
  | some r => writeReg r v s
  | none => .next s

/-- What a host read of register `r` returns: a member of a group whose VALID bit is 0 is a model fault (R26). -/
def readReg (r : Reg) (s : State) : Except Fault Word :=
  match r.group with
  | none => .ok (regValue s r)
  | some g => if s.groupValid g then .ok (regValue s r) else .error (.invalidGroup g)

/-- What a register read at word `o` returns (R39); 0 at an unmapped offset (R40). -/
def hostRead (o : BitVec 10) (s : State) : Except Fault Word :=
  match regAt o with
  | some r => readReg r s
  | none => .ok 0

/-- IN after a host write of `v` to address `a` (R61); unchanged out of range (R62). -/
def hostWriteIn (a : Nat) (v : Byte) (s : State) : State :=
  if withinIn (a + 1) then s.withIn (s.inMem.write a v) else s

/-- What a host read of IN returns (R61): 0 out of range (R62), a model fault where nothing was written since reset (I4). -/
def hostReadIn (a : Nat) (s : State) : Except Fault Byte :=
  if withinIn (a + 1) then
    match s.inMem.read a with
    | some v => .ok v
    | none => .error (.unwrittenIn a)
  else .ok 0

/-- What a host read of TMEM returns (R64): 0 out of range (R62), a model fault while TILES_VALID is 0 (R26) and for a byte that
is no member of the TILES group (R65). -/
def hostReadTmem (a : Nat) (s : State) : Except Fault Byte :=
  if withinTmem (a + 1) then
    if s.tilesValid then
      if a < 80 * s.tileCount.toNat then
        match s.tmem.read a with
        | some v => .ok v
        | none => .error (.unwrittenTmem a)
      else .error (.staleTmem a)
    else .error (.invalidGroup .tiles)
  else .ok 0

/-- The outcome of a read: the value is handed to the host and nothing of NXB changes (R71), or the model faults. -/
def readOutcome (r : Except Fault ReadValue) (s : State) : Host.Outcome State Fault Refusal :=
  match r with
  | .ok v => .next (s.withRead v)
  | .error f => .fault f

/-- One access of the host (R78). A host write to TMEM has no effect (R62). -/
def hostAct (a : HostAction) (s : State) : Host.Outcome State Fault Refusal :=
  match a with
  | .wr o v => hostWrite o v s
  | .rd o => readOutcome ((hostRead o s).map .word) s
  | .wrbIn a v => .next (hostWriteIn a.toNat v s)
  | .rdbIn a => readOutcome ((hostReadIn a.toNat s).map .byte) s
  | .wrbTmem _ _ => .next s
  | .rdbTmem a => readOutcome ((hostReadTmem a.toNat s).map .byte) s
  | .reset => .next s.afterReset

/-- The next access of the host; with none to come NXB is idle and nothing changes (R222). -/
def hostStep (s : State) : Host.Outcome State Fault Refusal :=
  match s.pending with
  | [] => .next s
  | a :: rest => hostAct a (s.withPending rest)

/-- The host's accesses with a write of the CMD word `w` put first. -/
def placeCommand (w : Word) (s : State) : State := s.withPending (.wr Reg.cmd.word w :: s.pending)

end Sys2Proof.Machine
end

