-- ==== Sys2Proof/Machine/Step.lean ====
section
/-! DEFINITION. One step: the next access of the host (R5, R78, R84, R222), and where the host of this pipeline places a command. -/

namespace Sys2Proof.Machine

/-- One step of the machine is one host access; a command runs whole inside its CMD write (R5, R84). -/
def step (s : State) : Host.Outcome State Fault Refusal := hostStep s

/-- `s` with the write of a command's word to CMD as the host's next access (log entry 4). -/
def State.withFetchWord (s : State) (nbits w : Nat) : State := placeCommand (BitVec.ofNat 32 (w % 2 ^ nbits)) s

end Sys2Proof.Machine
end

