-- ==== Sys2Proof/Machine/HostProgram.lean ====
section
/-! DEFINITION. The host syntax of R86 and the pseudo-instructions of R87, each as the accesses it stands for. A program is a list
of host accesses; NXB fetches nothing (R28). -/

namespace Sys2Proof.Machine

/-- `wr NAME, v` (R86). -/
def wrNamed (r : Reg) (v : Word) : HostAction := .wr r.word v

/-- `rd NAME` (R86). -/
def rdNamed (r : Reg) : HostAction := .rd r.word

/-- `fill IN[a], b0 b1 ...` (R86): byte writes at addresses a, a+1, ... An address of 2^32 or more has no host access (R8) and lies
outside IN (R7), where a write has no effect (R62): the fill ends there and does not wrap (DEDUCED, log entry 17). -/
def fillIn (a : Nat) : List Byte → List HostAction
  | [] => []
  | b :: bs => if a < 2 ^ 32 then .wrbIn (BitVec.ofNat 32 a) b :: fillIn (a + 1) bs else []

/-- `zero IN[a], n` (R86); past 2^32 as for `fill` (log entry 17). -/
def zeroIn (a n : Nat) : List HostAction := fillIn a (List.replicate n 0)

/-- `parse base, avail` (R87). -/
def pseudoParse (base avail : Word) : List HostAction := [wrNamed .arg0 base, wrNamed .arg1 avail, wrNamed .cmd 0x00000001]

/-- `probe base, avail, ext` (R87). -/
def pseudoProbe (base avail ext : Word) : List HostAction :=
  [wrNamed .arg0 base, wrNamed .arg1 avail, wrNamed .arg2 ext, wrNamed .cmd 0x00000002]

/-- `decode addr, len, index` (R87). -/
def pseudoDecode (addr len index : Word) : List HostAction :=
  [wrNamed .arg0 addr, wrNamed .arg1 len, wrNamed .arg2 index, wrNamed .cmd 0x00000010]

/-- `extract addr, len` (R87). -/
def pseudoExtract (addr len : Word) : List HostAction := [wrNamed .arg0 addr, wrNamed .arg1 len, wrNamed .cmd 0x00000011]

/-- `load k` (R87). -/
def pseudoLoad (k : Word) : List HostAction := [wrNamed .arg0 k, wrNamed .cmd 0x00000012]

/-- `resolve idx, t` (R87): idx in two's complement. -/
def pseudoResolve (idx : Int) (t : Word) : List HostAction :=
  [wrNamed .arg0 (BitVec.ofInt 32 idx), wrNamed .arg1 t, wrNamed .cmd 0x00000020]

end Sys2Proof.Machine
end

