-- ==== Sys2Proof/Safety.lean ====
section
/-! DEFINITION. The terms claims use: readable bytes, what a record of TMEM holds, the invariant of the machine, safe outcomes. -/

namespace Sys2Proof.Machine

/-- A step or a command that answers a next state: no model fault, no refusal. -/
def Completes (o : Host.Outcome State Fault Refusal) : Prop := ∃ t, o = .next t

/-- The `n` bytes from address `a` up all have a value, namely those of `B`. -/
def HoldsBytes (m : Mem) (a n : Nat) (B : Nat → Byte) : Prop := ∀ i, i < n → m.read (a + i) = some (B i)

/-- The `n` bytes from address `a` up have all been written since reset (R223). -/
def Written (m : Mem) (a n : Nat) : Prop := ∀ i, i < n → ∃ b, m.read (a + i) = some b

/-- TMEM holds, as tile `k`, the record of the 16 bytes `B` (R64): the raw bytes, then pixel (y,x) of decode16 at 80k+16+8y+x. -/
def HoldsTile (tmem : Mem) (k : Nat) (B : Nat → Byte) : Prop :=
  (∀ i, i < 16 → tmem.read (80 * k + i) = some (B i)) ∧
    ∀ y x, y < 8 → x < 8 → tmem.read (80 * k + 16 + 8 * y + x) = some ((decodePixel B y x).setWidth 8)

/-- IN and TMEM keep the canonical form and list only addresses of their space (R60). -/
structure MemoryInv (s : State) : Prop where
  inWf : s.inMem.wf
  inRange : ∀ c ∈ s.inMem, c.1 < Config.inSize
  tmemWf : s.tmem.wf
  tmemRange : ∀ c ∈ s.tmem, c.1 < Config.tmemSize

/-- What the ERR registers may hold (R24, R27, R201, R207): code 4 never; detail only for INCOMPLETE_DATA, and then a segment and a
count below the expected one. -/
structure ErrorInv (s : State) : Prop where
  neverNotFound : s.err ≠ .notFound
  noDetail : s.err ≠ .incompleteData → s.errSeg = .none ∧ s.errExpected = 0 ∧ s.errActual = 0
  detail : s.err = .incompleteData → s.errSeg ≠ .none ∧ s.errActual.toNat < s.errExpected.toNat

/-- What a valid ROM group holds (R102, R109): the magic, the lengths of the stored header, and the offsets of one container that
lies inside IN. -/
structure RomInv (r : RomGroup) : Prop where
  magic : magicOk r.header = true
  trnLen : r.trnLen.toNat = trainerSizeBytes r.header
  prgLen : r.prgLen.toNat = prgSizeBytes r.header
  chrLen : r.chrLen.toNat = chrSizeBytes r.header
  layout : ∃ base, base + totalSize r.header ≤ Config.inSize ∧
    r.trnOff = regWord 0x080 (base + 16) ∧
    r.prgOff = regWord 0x088 (base + 16 + trainerSizeBytes r.header) ∧
    r.chrOff = regWord 0x090 (base + 16 + trainerSizeBytes r.header + prgSizeBytes r.header)

/-- What a valid TR group holds (R140, R142, R144): the rows are decode16 of the raw bytes, and bits 31:16 of a row are 0. -/
structure TrInv (t : TrGroup) : Prop where
  pixels : ∀ y x, y < 8 → x < 8 → t.pixel y x = decodePixel t.raw y x
  highBits : ∀ y, y < 8 → (t.row y).toNat < 2 ^ 16

/-- What a valid TILES group holds (R64, R147): no more tiles than TMEM has room for, and a decoded record for each. -/
structure TilesInv (s : State) : Prop where
  count : s.tileCount.toNat ≤ Config.tmemTiles
  record : ∀ k, k < s.tileCount.toNat → ∃ B, HoldsTile s.tmem k B

/-- What a valid PAL group holds (R34, R175): slots 1 to 3 are opaque colour words, slot 0 an opaque colour word or the marker. -/
structure PalInv (p : PalGroup) : Prop where
  slot0 : p.pal0 = transparentMarker ∨ p.pal0.toNat < 2 ^ 24
  slot1 : p.pal1.toNat < 2 ^ 24
  slot2 : p.pal2.toNat < 2 ^ 24
  slot3 : p.pal3.toNat < 2 ^ 24

/-- The invariant of the machine: memory in form, the ERR registers consistent, and every group whose VALID bit is 1 holding a
result its rules can give. -/
structure State.Inv (s : State) : Prop where
  memory : MemoryInv s
  error : ErrorInv s
  rom : s.romValid = true → RomInv s.rom
  tr : s.trValid = true → TrInv s.tr
  tiles : s.tilesValid = true → TilesInv s
  pal : s.palValid = true → PalInv s.pal

end Sys2Proof.Machine
end

