-- ==== Sys2Proof/Certificates/Slice0/Obligations.lean ====
section
/-! DEFINITION. The statements about NXB, from the numbered rules of spec/. Each holds for every value of the parameters of
Config: IN_SIZE, REF, PRESET, GREY, P_SHORT_HEADER, P_PROBE_MIN_LEN and the free value Config.regOverflow. -/

open Sys2Proof Sys2Proof.Machine

/-! ## Encoding -/

/-- R81: the six CMD words decode to their commands. Derived: a few words only. -/
def Obligations.SpecWordsDecode : Prop :=
  decode 0x00000001 = some .parse ∧ decode 0x00000002 = some .probe ∧ decode 0x00000010 = some .decodeTile ∧
    decode 0x00000011 = some .extractTiles ∧ decode 0x00000012 = some .loadTile ∧ decode 0x00000020 = some .resolve ∧
    decode 0x00000101 = none ∧ decode 0x80000001 = none ∧ decode 0x00000000 = none

/-- R83, R205: which of the 2^32 words are illegal, and that writing one to CMD changes STATUS.ERR and the ERR registers only. -/
def Obligations.IllegalWordsRecordCode5 : Prop :=
  ∀ w : Word,
    (decode w = none ↔
      w.extractLsb' 8 24 ≠ 0 ∨ w.extractLsb' 0 8 ∉ ([0x01, 0x02, 0x10, 0x11, 0x12, 0x20] : List Byte)) ∧
    (decode w = none → ∀ (s : State) (rest : List HostAction), s.pending = .wr 0 w :: rest →
      step s = .next { s with
        pending := rest, err := .illegalCommand, errSeg := .none, errExpected := 0, errActual := 0 })

/-- R80, R81, R85: every command decodes from its own word, and a word that decodes is that command's word: all 2^32 words are
either exactly one command's or illegal. -/
def Obligations.DecodeEncodeAgree : Prop :=
  (∀ i, decode (encode i) = some i) ∧ (∀ w i, decode w = some i → w = encode i) ∧
    ∀ w, (∃ i, encode i = w ∧ ∀ j, encode j = w → j = i) ∨ (decode w = none ∧ ∀ i, encode i ≠ w)

/-! ## The step -/

/-- R84: a step whose next host access writes a legal word to CMD (offset 0x000) is the command's meaning on the state with that
access taken; so is the step on a state where the host placed the word. -/
def Obligations.StepRunsIssuedCommand : Prop :=
  (∀ (s : State) (rest : List HostAction) (w : Word) (i : Instr),
    s.pending = .wr 0 w :: rest → decode w = some i → step s = exec i (s.withPending rest)) ∧
  ∀ (s : State) (i : Instr), step (s.withFetchWord 32 (encode i).toNat) = exec i s

/-- R222, with the model's own field of accesses still to come (log entry 4): with none, a step changes nothing. -/
def Obligations.IdleWithoutAccess : Prop := ∀ s : State, s.pending = [] → step s = .next s

/-- R220: what asserting reset leaves, from any state. The members of the result groups and TMEM are UNSPECIFIED, so of those it
says only that every VALID bit is 0; every IN byte is unwritten. -/
def Obligations.ResetLeaves : Prop :=
  ∀ (s : State) (rest : List HostAction), s.pending = .reset :: rest →
    ∃ t, step s = .next t ∧ t.statusWord = 0 ∧ t.err = .ok ∧
      (∀ g, t.groupValid g = false) ∧
      regValue t .arg0 = 0 ∧ regValue t .arg1 = 0 ∧ regValue t .arg2 = 0 ∧
      regValue t .errSeg = 0 ∧ regValue t .errExpected = 0 ∧ regValue t .errActual = 0 ∧ regValue t .probeResult = 0 ∧
      ∀ a, t.inMem.read a = none

/-! ## Host accesses -/

/-- R71: a CMD write issues a command, a write to ARG0..ARG2 or to IN changes only the written location, no read changes any state
of NXB, and a read done twice gives the same value (the accesses left and the values read are the host's own, log entries 4, 5). -/
def Obligations.HostAccessSideEffects : Prop :=
  ∀ (s : State) (a : HostAction) (rest : List HostAction), s.pending = a :: rest →
    (∀ w, a = .wr 0x000 w → step s = issueCommand w { s with pending := rest }) ∧
    (∀ v, a = .wr 0x002 v → step s = .next { s with pending := rest, arg0 := v }) ∧
    (∀ v, a = .wr 0x003 v → step s = .next { s with pending := rest, arg1 := v }) ∧
    (∀ v, a = .wr 0x004 v → step s = .next { s with pending := rest, arg2 := v }) ∧
    (∀ x v, a = .wrbIn x v → ∃ m, step s = .next { s with pending := rest, inMem := m } ∧
      ∀ b, b ≠ x.toNat → m.read b = s.inMem.read b) ∧
    (∀ t, ((∃ o, a = .rd o) ∨ (∃ x, a = .rdbIn x) ∨ ∃ x, a = .rdbTmem x) → step s = .next t →
      ∃ v, t = { s with pending := rest, reads := v :: s.reads } ∧
        ∀ again, rest = a :: again → step t = .next { s with pending := again, reads := v :: v :: s.reads })

/-- R22: what is written to ARG0, ARG1 or ARG2 is what a read right after returns. -/
def Obligations.ArgReadsBack : Prop :=
  ∀ (s : State) (o : BitVec 10) (v : Word) (rest : List HostAction),
    s.pending = .wr o v :: .rd o :: rest → o = 0x002 ∨ o = 0x003 ∨ o = 0x004 →
      ∃ t u, step s = .next t ∧ step t = .next u ∧ u.reads = .word v :: s.reads ∧ u.pending = rest

/-- R40: unmapped offsets and CMD read 0, writes to unmapped offsets and to read-only registers have no effect, and no host
read of any space changes NXB. -/
def Obligations.UnmappedAndReadOnly : Prop :=
  ∀ (s : State) (o : BitVec 10) (rest : List HostAction),
    (s.pending = .rd o :: rest → regAt o = none ∨ regAt o = some .cmd →
      step s = .next { s with pending := rest, reads := .word 0 :: s.reads }) ∧
    (∀ v, s.pending = .wr o v :: rest →
      (∀ r, regAt o = some r → r ≠ .cmd ∧ r ≠ .arg0 ∧ r ≠ .arg1 ∧ r ≠ .arg2) → step s = .next { s with pending := rest }) ∧
    (∀ a t, ((∃ q, a = .rd q) ∨ (∃ x, a = .rdbIn x) ∨ ∃ x, a = .rdbTmem x) → s.pending = a :: rest → step s = .next t →
      ∃ v, t = { s with pending := rest, reads := v :: s.reads })

/-- R39 with R21 to R38: each register stands at its own byte offset of the window, and nothing else is mapped. -/
def Obligations.RegisterOffsets : Prop :=
  (∀ r, regAt r.word = some r ∧ 4 * r.word.toNat = r.offset) ∧
    ∀ o r, regAt o = some r → r.offset = 4 * o.toNat

/-- R61: a host write to IN sets the byte, a host read returns it, every other byte stays, and no command writes IN. -/
def Obligations.InReadsBack : Prop :=
  (∀ (s : State) (a : Word) (v : Byte) (rest : List HostAction), a.toNat < Config.inSize → s.pending = .wrbIn a v :: rest →
    ∃ t, step s = .next t ∧ t.inMem.read a.toNat = some v ∧ ∀ b, b ≠ a.toNat → t.inMem.read b = s.inMem.read b) ∧
  (∀ (s : State) (a : Word) (v : Byte) (rest : List HostAction), a.toNat < Config.inSize → s.pending = .rdbIn a :: rest →
    s.inMem.read a.toNat = some v → step s = .next { s with pending := rest, reads := .byte v :: s.reads }) ∧
  ∀ (i : Instr) (s t : State), exec i s = .next t → t.inMem = s.inMem

/-- R62: host byte accesses out of range read 0 and write nothing, a host write to TMEM does nothing; no error, STATUS unchanged. -/
def Obligations.OutOfRangeBytes : Prop :=
  ∀ (s : State) (a : Word) (v : Byte) (rest : List HostAction),
    (Config.inSize ≤ a.toNat → s.pending = .rdbIn a :: rest →
      step s = .next { s with pending := rest, reads := .byte 0 :: s.reads }) ∧
    (Config.inSize ≤ a.toNat → s.pending = .wrbIn a v :: rest → step s = .next { s with pending := rest }) ∧
    (Config.tmemSize ≤ a.toNat → s.pending = .rdbTmem a :: rest →
      step s = .next { s with pending := rest, reads := .byte 0 :: s.reads }) ∧
    (s.pending = .wrbTmem a v :: rest → step s = .next { s with pending := rest })

/-- R26: a read of a member of a group whose VALID bit is 0 is a model fault, derived members and TMEM bytes included. -/
def Obligations.InvalidMemberReadFaults : Prop :=
  (∀ (s : State) (r : Reg) (g : Group) (rest : List HostAction), s.pending = .rd r.word :: rest → r.group = some g →
    s.groupValid g = false → step s = .fault (.invalidGroup g)) ∧
  ∀ (s : State) (a : Word) (rest : List HostAction), s.pending = .rdbTmem a :: rest → a.toNat < Config.tmemSize →
    s.tilesValid = false → step s = .fault (.invalidGroup .tiles)

/-- R21 to R38, R25, R39: each stored register, by its byte offset, reads as its own field, always where it is in no group and
else while its group's VALID bit is 1 (the bit stands second); a derived register reads as `regValue` gives it (its value by R103 to
R108 and R145 is stated in DerivedHeaderRegisters and TileQuery). STATUS's fields are stated in StatusLayout. -/
def Obligations.ReadableRegisterReads : Prop :=
  (∀ (s : State) (rest : List HostAction) (e : Nat × Bool × Word),
    e ∈ [(0x000, true, 0), (0x004, true, s.statusWord), (0x008, true, s.arg0), (0x00C, true, s.arg1), (0x010, true, s.arg2),
      (0x014, true, match s.errSeg with | .none => 0 | .header => 1 | .trainer => 2 | .program => 3 | .graphics => 4),
      (0x018, true, s.errExpected), (0x01C, true, s.errActual), (0x020, true, if s.probeResult then 1 else 0),
      (0x040, s.romValid, s.rom.hdrW0), (0x044, s.romValid, s.rom.hdrW1), (0x048, s.romValid, s.rom.hdrW2),
      (0x04C, s.romValid, s.rom.hdrW3), (0x080, s.romValid, s.rom.trnOff), (0x084, s.romValid, s.rom.trnLen),
      (0x088, s.romValid, s.rom.prgOff), (0x08C, s.romValid, s.rom.prgLen), (0x090, s.romValid, s.rom.chrOff),
      (0x094, s.romValid, s.rom.chrLen), (0x100, s.trValid, s.tr.index), (0x110, s.trValid, s.tr.rawW0),
      (0x114, s.trValid, s.tr.rawW1), (0x118, s.trValid, s.tr.rawW2), (0x11C, s.trValid, s.tr.rawW3),
      (0x120, s.trValid, s.tr.row0), (0x124, s.trValid, s.tr.row1), (0x128, s.trValid, s.tr.row2), (0x12C, s.trValid, s.tr.row3),
      (0x130, s.trValid, s.tr.row4), (0x134, s.trValid, s.tr.row5), (0x138, s.trValid, s.tr.row6), (0x13C, s.trValid, s.tr.row7),
      (0x140, s.tilesValid, s.tileCount), (0x180, s.palValid, s.pal.pal0), (0x184, s.palValid, s.pal.pal1),
      (0x188, s.palValid, s.pal.pal2), (0x18C, s.palValid, s.pal.pal3)] →
    e.2.1 = true → s.pending = .rd (BitVec.ofNat 10 (e.1 / 4)) :: rest →
      step s = .next { s with pending := rest, reads := .word e.2.2 :: s.reads }) ∧
  ∀ (s : State) (r : Reg) (rest : List HostAction), s.pending = .rd r.word :: rest →
    (∀ g, r.group = some g → s.groupValid g = true) →
      step s = .next { s with pending := rest, reads := .word (regValue s r) :: s.reads }

/-- R64, R65, R78: with TILES_VALID = 1 the host reads a TMEM byte below 80 × TILE_COUNT and faults on one above. -/
def Obligations.TmemHostRead : Prop :=
  ∀ (s : State) (a : Word) (rest : List HostAction), s.pending = .rdbTmem a :: rest → a.toNat < Config.tmemSize →
    s.tilesValid = true →
      (∀ v, a.toNat < 80 * s.tileCount.toNat → s.tmem.read a.toNat = some v →
        step s = .next { s with pending := rest, reads := .byte v :: s.reads }) ∧
      (80 * s.tileCount.toNat ≤ a.toNat → step s = .fault (.staleTmem a.toNat))

/-- R23, R24: the fields of STATUS as the host reads it. -/
def Obligations.StatusLayout : Prop :=
  ∀ s : State,
    (s.statusWord.extractLsb' 0 4).toNat =
      (match s.err with
        | .ok => 0 | .formatError => 1 | .incompleteData => 2 | .argumentError => 3 | .notFound => 4 | .illegalCommand => 5) ∧
    s.statusWord.extractLsb' 4 4 = 0 ∧ s.statusWord.getLsbD 8 = s.romValid ∧ s.statusWord.getLsbD 9 = s.trValid ∧
    s.statusWord.getLsbD 10 = s.tilesValid ∧ s.statusWord.getLsbD 11 = s.palValid ∧ s.statusWord.extractLsb' 12 20 = 0

/-- R87: each pseudo-instruction is its command run with the ARG registers it writes. -/
def Obligations.PseudoInstructionsRun : Prop :=
  ∀ (s : State) (x y z : Word) (i : Int) (rest : List HostAction),
    core.run 3 (s.withPending (pseudoParse x y ++ rest)) = exec .parse { s with pending := rest, arg0 := x, arg1 := y } ∧
    core.run 4 (s.withPending (pseudoProbe x y z ++ rest)) =
      exec .probe { s with pending := rest, arg0 := x, arg1 := y, arg2 := z } ∧
    core.run 4 (s.withPending (pseudoDecode x y z ++ rest)) =
      exec .decodeTile { s with pending := rest, arg0 := x, arg1 := y, arg2 := z } ∧
    core.run 3 (s.withPending (pseudoExtract x y ++ rest)) =
      exec .extractTiles { s with pending := rest, arg0 := x, arg1 := y } ∧
    core.run 2 (s.withPending (pseudoLoad x ++ rest)) = exec .loadTile { s with pending := rest, arg0 := x } ∧
    core.run 3 (s.withPending (pseudoResolve i y ++ rest)) =
      exec .resolve { s with pending := rest, arg0 := BitVec.ofInt 32 i, arg1 := y }

/-! ## Unit CP -/

/-- R100: PARSE, every check in its order and the whole result. `H` is the 16 header bytes IN holds at base. Each offset is stated
where it fits its 32-bit register: R10 says that a register never receives 2^32 or more (log entry 11). -/
def Obligations.ParseFollowsItsRule : Prop :=
  ∀ (s : State) (base avail : Nat), base = s.arg0.toNat → avail = s.arg1.toNat →
    (Config.inSize < base + avail → exec .parse s = .next { s with
      err := .argumentError, errSeg := .none, errExpected := 0, errActual := 0, romValid := false }) ∧
    (base + avail ≤ Config.inSize → avail < 16 →
      (Config.shortHeader = .formatError → exec .parse s = .next { s with
        err := .formatError, errSeg := .none, errExpected := 0, errActual := 0, romValid := false }) ∧
      (Config.shortHeader = .incompleteData → exec .parse s = .next { s with
        err := .incompleteData, errSeg := .header, errExpected := 16, errActual := s.arg1, romValid := false })) ∧
    ∀ (H : Nat → Byte) (T P C : Nat), base + avail ≤ Config.inSize → 16 ≤ avail → HoldsBytes s.inMem base 16 H →
      T = (if (H 6).getLsbD 2 then 512 else 0) → P = (H 4).toNat * 16384 → C = (H 5).toNat * 8192 →
      (¬(H 0 = 0x4E ∧ H 1 = 0x45 ∧ H 2 = 0x53 ∧ H 3 = 0x1A) → exec .parse s = .next { s with
        err := .formatError, errSeg := .none, errExpected := 0, errActual := 0, romValid := false }) ∧
      (H 0 = 0x4E ∧ H 1 = 0x45 ∧ H 2 = 0x53 ∧ H 3 = 0x1A →
        (avail - 16 < T → exec .parse s = .next { s with
          err := .incompleteData, errSeg := .trainer, errExpected := BitVec.ofNat 32 T,
          errActual := BitVec.ofNat 32 (avail - 16), romValid := false }) ∧
        (16 + T ≤ avail → avail - 16 - T < P → exec .parse s = .next { s with
          err := .incompleteData, errSeg := .program, errExpected := BitVec.ofNat 32 P,
          errActual := BitVec.ofNat 32 (avail - 16 - T), romValid := false }) ∧
        (16 + T + P ≤ avail → avail - 16 - T - P < C → exec .parse s = .next { s with
          err := .incompleteData, errSeg := .graphics, errExpected := BitVec.ofNat 32 C,
          errActual := BitVec.ofNat 32 (avail - 16 - T - P), romValid := false }) ∧
        (16 + T + P + C ≤ avail → ∃ r, exec .parse s = .next { s with
          err := .ok, errSeg := .none, errExpected := 0, errActual := 0, rom := r, romValid := true } ∧
          (∀ j, j < 4 → (r.hdrWord j).toNat = (H (4 * j)).toNat + (H (4 * j + 1)).toNat * 2 ^ 8 +
            (H (4 * j + 2)).toNat * 2 ^ 16 + (H (4 * j + 3)).toNat * 2 ^ 24) ∧
          r.trnLen.toNat = T ∧ r.prgLen.toNat = P ∧ r.chrLen.toNat = C ∧
          (base + 16 < 2 ^ 32 → r.trnOff.toNat = base + 16) ∧
          (base + 16 + T < 2 ^ 32 → r.prgOff.toNat = base + 16 + T) ∧
          (base + 16 + T + P < 2 ^ 32 → r.chrOff.toNat = base + 16 + T + P)))

/-- R103 to R108: what the derived header registers read as, in any state whose ROM_VALID is 1, from the stored bytes `H`. -/
def Obligations.DerivedHeaderRegisters : Prop :=
  ∀ (s : State) (H : Nat → Byte), s.romValid = true →
    (∀ j, j < 4 → (s.rom.hdrWord j).toNat = (H (4 * j)).toNat + (H (4 * j + 1)).toNat * 2 ^ 8 +
      (H (4 * j + 2)).toNat * 2 ^ 16 + (H (4 * j + 3)).toNat * 2 ^ 24) →
    (∃ w, readReg .mapper s = .ok w ∧ w.toNat = (H 7).toNat / 16 * 16 + (H 6).toNat / 16) ∧
    readReg .mirroring s = .ok (if (H 6).getLsbD 3 then 2 else if (H 6).getLsbD 0 then 1 else 0) ∧
    (∃ w, readReg .hdrFlags s = .ok w ∧ w.getLsbD 0 = (H 6).getLsbD 1 ∧ w.getLsbD 1 = (H 6).getLsbD 2 ∧
      (w.getLsbD 2 = true ↔ (H 7).toNat / 4 % 4 = 2) ∧
      (w.getLsbD 3 = true ↔ H 0 = 0x4E ∧ H 1 = 0x45 ∧ H 2 = 0x53 ∧ H 3 = 0x1A) ∧ w.toNat < 16) ∧
    (∃ w, readReg .prgUnits s = .ok w ∧ w.toNat = (H 4).toNat) ∧
    (∃ w, readReg .chrUnits s = .ok w ∧ w.toNat = (H 5).toNat) ∧
    (∃ w, readReg .prgSizeBytes s = .ok w ∧ w.toNat = (H 4).toNat * 16384) ∧
    (∃ w, readReg .chrSizeBytes s = .ok w ∧ w.toNat = (H 5).toNat * 8192) ∧
    (∃ w, readReg .trainerSizeBytes s = .ok w ∧ w.toNat = if (H 6).getLsbD 2 then 512 else 0) ∧
    ∃ w, readReg .totalSize s = .ok w ∧
      w.toNat = 16 + (if (H 6).getLsbD 2 then 512 else 0) + (H 4).toNat * 16384 + (H 5).toNat * 8192

/-- R102, R108, R109: with a valid ROM group, MAGIC_OK reads 1, TOTAL_SIZE is 16 plus the three lengths, and the segments lie one
after the other inside IN. The state invariant is a premise; the offsets are stated for IN_SIZE < 2^32 (log entry 11). -/
def Obligations.ValidRomDescribesContainer : Prop :=
  ∀ s : State, s.Inv → s.romValid = true →
    (regValue s .hdrFlags).getLsbD 3 = true ∧
    (regValue s .totalSize).toNat = 16 + s.rom.trnLen.toNat + s.rom.prgLen.toNat + s.rom.chrLen.toNat ∧
    (Config.inSize < 2 ^ 32 →
      s.rom.prgOff.toNat = s.rom.trnOff.toNat + s.rom.trnLen.toNat ∧
      s.rom.chrOff.toNat = s.rom.prgOff.toNat + s.rom.prgLen.toNat ∧
      s.rom.chrOff.toNat + s.rom.chrLen.toNat ≤ Config.inSize ∧ 16 ≤ s.rom.trnOff.toNat)

/-- R77, R109: a segment is the bytes of IN inside its descriptor as IN stands when it is read. While ROM_VALID is 0 that it is the
descriptor held is the model's choice (log entry 19). -/
def Obligations.SegmentsReferToIn : Prop :=
  ∀ (s : State) (bs : List Byte),
    (trainerSegment s = .ok bs ↔ bs.length = s.rom.trnLen.toNat ∧
      ∀ i, i < s.rom.trnLen.toNat → s.inMem.read (s.rom.trnOff.toNat + i) = bs[i]?) ∧
    (programSegment s = .ok bs ↔ bs.length = s.rom.prgLen.toNat ∧
      ∀ i, i < s.rom.prgLen.toNat → s.inMem.read (s.rom.prgOff.toNat + i) = bs[i]?) ∧
    (graphicsSegment s = .ok bs ↔ bs.length = s.rom.chrLen.toNat ∧
      ∀ i, i < s.rom.chrLen.toNat → s.inMem.read (s.rom.chrOff.toNat + i) = bs[i]?)

/-- R111: PROBE never raises; it answers 1 iff the region is admitted, EXT_OK is set, the source is long enough and the four bytes
`M` at base are the magic. -/
def Obligations.ProbeFollowsItsRule : Prop :=
  ∀ (s : State) (base avail : Nat), base = s.arg0.toNat → avail = s.arg1.toNat →
    (Config.inSize < base + avail ∨ s.arg2.getLsbD 0 = false ∨ avail < Config.probeMinLen → exec .probe s = .next { s with
      probeResult := false, err := .ok, errSeg := .none, errExpected := 0, errActual := 0 }) ∧
    (∀ M : Nat → Byte, base + avail ≤ Config.inSize → s.arg2.getLsbD 0 = true → Config.probeMinLen ≤ avail →
      HoldsBytes s.inMem base 4 M → exec .probe s = .next { s with
        probeResult := decide (M 0 = 0x4E ∧ M 1 = 0x45 ∧ M 2 = 0x53 ∧ M 3 = 0x1A)
        err := .ok, errSeg := .none, errExpected := 0, errActual := 0 }) ∧
    (Config.probeMinLen = 4 ∨ Config.probeMinLen = 16)

/-! ## Unit TD -/

/-- R140, R141: pixel (y,x) is twice bit 7−x of B[y+8] plus bit 7−x of B[y], and those two bits alone decide it. -/
def Obligations.PixelLanes : Prop :=
  (∀ (B : Nat → Byte) (y x : Nat), y < 8 → x < 8 →
    (decodePixel B y x).toNat = 2 * ((B (y + 8)).toNat / 2 ^ (7 - x) % 2) + (B y).toNat / 2 ^ (7 - x) % 2) ∧
  ∀ (B C : Nat → Byte) (y x : Nat), y < 8 → x < 8 → (B y).getLsbD (7 - x) = (C y).getLsbD (7 - x) →
    (B (y + 8)).getLsbD (7 - x) = (C (y + 8)).getLsbD (7 - x) → decodePixel B y x = decodePixel C y x

/-- R146: decode16 and the sum formula of its inverse undo each other on 16-byte blocks and on 8×8 grids. -/
def Obligations.DecodeIsBijection : Prop :=
  (∀ (B : Nat → Byte) (i : Nat), i < 16 → encodeByte (decodePixel B) i = B i) ∧
    ∀ (pix : Nat → Nat → Pixel) (y x : Nat), y < 8 → x < 8 → decodePixel (encodeByte pix) y x = pix y x

/-- R142: DECODE_TILE, both checks and the whole result. `B` is the 16 bytes IN holds at addr. -/
def Obligations.DecodeTileFollowsItsRule : Prop :=
  ∀ (s : State) (addr len : Nat), addr = s.arg0.toNat → len = s.arg1.toNat →
    (Config.inSize < addr + len ∨ len < 16 → exec .decodeTile s = .next { s with
      err := .argumentError, errSeg := .none, errExpected := 0, errActual := 0, trValid := false }) ∧
    ∀ B : Nat → Byte, addr + len ≤ Config.inSize → 16 ≤ len → HoldsBytes s.inMem addr 16 B →
      ∃ t, exec .decodeTile s = .next { s with
        err := .ok, errSeg := .none, errExpected := 0, errActual := 0, tr := t, trValid := true } ∧
        t.index = s.arg2 ∧
        (∀ j, j < 4 → (t.rawWord j).toNat = (B (4 * j)).toNat + (B (4 * j + 1)).toNat * 2 ^ 8 +
          (B (4 * j + 2)).toNat * 2 ^ 16 + (B (4 * j + 3)).toNat * 2 ^ 24) ∧
        (∀ y x, y < 8 → x < 8 → (t.row y).toNat / 4 ^ x % 4 = (decodePixel B y x).toNat) ∧
        ∀ y, y < 8 → (t.row y).toNat < 2 ^ 16

/-- R143, R64: EXTRACT_TILES, its check and the whole result. `B k` is the block IN holds at addr+16k; every TMEM byte at or above
80n keeps its value. -/
def Obligations.ExtractTilesFollowsItsRule : Prop :=
  ∀ (s : State) (addr len n : Nat), addr = s.arg0.toNat → len = s.arg1.toNat → n = len / 16 →
    (Config.inSize < addr + len → exec .extractTiles s = .next { s with
      err := .argumentError, errSeg := .none, errExpected := 0, errActual := 0, tilesValid := false }) ∧
    ∀ B : Nat → Nat → Byte, addr + len ≤ Config.inSize → (∀ k, k < n → HoldsBytes s.inMem (addr + 16 * k) 16 (B k)) →
      ∃ c m, exec .extractTiles s = .next { s with
        err := .ok, errSeg := .none, errExpected := 0, errActual := 0, tileCount := c, tmem := m, tilesValid := true } ∧
        c.toNat = n ∧ (∀ k, k < n → HoldsTile m k (B k)) ∧ ∀ a, 80 * n ≤ a → m.read a = s.tmem.read a

/-- R147, R65: the tile count of a successful EXTRACT_TILES is floor(len/16), every record fits in TMEM, and the graphics segment of a
parsed container, or any length of c × 8192 bytes, gives CHR_UNITS × 512, or c × 512, tiles. -/
def Obligations.TileCountLaw : Prop :=
  ∀ s t : State, exec .extractTiles s = .next t → t.err = .ok →
    t.tileCount.toNat = s.arg1.toNat / 16 ∧ t.tileCount.toNat ≤ Config.inSize / 16 ∧
      80 * t.tileCount.toNat ≤ Config.tmemSize ∧
      (s.Inv → s.romValid = true → s.arg1 = s.rom.chrLen → t.tileCount.toNat = (regValue s .chrUnits).toNat * 512) ∧
      ∀ c, s.arg1.toNat = c * 8192 → t.tileCount.toNat = c * 512

/-- R144: LOAD_TILE, both checks and the whole result, from the record TMEM holds. -/
def Obligations.LoadTileFollowsItsRule : Prop :=
  ∀ (s : State) (k : Nat), k = s.arg0.toNat →
    (s.tilesValid = false ∨ s.tileCount.toNat ≤ k → exec .loadTile s = .next { s with
      err := .argumentError, errSeg := .none, errExpected := 0, errActual := 0, trValid := false }) ∧
    ∀ R : Nat → Byte, s.tilesValid = true → k < s.tileCount.toNat → HoldsBytes s.tmem (80 * k) 80 R →
      ∃ t, exec .loadTile s = .next { s with
        err := .ok, errSeg := .none, errExpected := 0, errActual := 0, tr := t, trValid := true } ∧
        t.index = s.arg0 ∧
        (∀ j, j < 4 → (t.rawWord j).toNat = (R (4 * j)).toNat + (R (4 * j + 1)).toNat * 2 ^ 8 +
          (R (4 * j + 2)).toNat * 2 ^ 16 + (R (4 * j + 3)).toNat * 2 ^ 24) ∧
        ∀ y, y < 8 → (t.row y).toNat =
          (R (16 + 8 * y)).toNat + (R (16 + 8 * y + 1)).toNat * 4 + (R (16 + 8 * y + 2)).toNat * 4 ^ 2 +
          (R (16 + 8 * y + 3)).toNat * 4 ^ 3 + (R (16 + 8 * y + 4)).toNat * 4 ^ 4 + (R (16 + 8 * y + 5)).toNat * 4 ^ 5 +
          (R (16 + 8 * y + 6)).toNat * 4 ^ 6 + (R (16 + 8 * y + 7)).toNat * 4 ^ 7

/-- R144, R143, R142: after an EXTRACT_TILES that succeeds, LOAD_TILE k answers a next state whose TR group is the one DECODE_TILE
of IN[addr+16k .. addr+16k+15] with index k gives, as IN stood at the EXTRACT_TILES. -/
def Obligations.LoadEqualsDecode : Prop :=
  ∀ (s t : State) (k a : Word), exec .extractTiles s = .next t → t.err = .ok → k.toNat < t.tileCount.toNat →
    a.toNat = s.arg0.toNat + 16 * k.toNat →
      ∃ u v, exec .loadTile { t with arg0 := k } = .next u ∧
        exec .decodeTile { s with arg0 := a, arg1 := 16, arg2 := k } = .next v ∧
        u.tr = v.tr ∧ u.err = .ok ∧ v.err = .ok ∧ u.trValid = true ∧ v.trValid = true

/-- R145: TR_QUERY read with TR_VALID = 1. Bit v (0..3) is set iff some pixel has value v; bits 6:4 are the number of distinct
values, 1 to 4; bit 8 is set iff every pixel is 0; no other bit is set. -/
def Obligations.TileQuery : Prop :=
  ∀ s : State, s.trValid = true → ∃ q, readReg .trQuery s = .ok q ∧
    (∀ v, v < 4 → (q.getLsbD v = true ↔ ∃ y x, y < 8 ∧ x < 8 ∧ (s.tr.pixel y x).toNat = v)) ∧
    (q.toNat / 16 % 8 = q.toNat % 2 + q.toNat / 2 % 2 + q.toNat / 4 % 2 + q.toNat / 8 % 2) ∧
    1 ≤ q.toNat / 16 % 8 ∧ q.toNat / 16 % 8 ≤ 4 ∧
    (q.getLsbD 8 = true ↔ ∀ y x, y < 8 → x < 8 → s.tr.pixel y x = 0) ∧
    q.getLsbD 7 = false ∧ q.toNat < 2 ^ 9

/-! ## Unit PR -/

/-- R171, R172, R173, R175, R176: RESOLVE finishes on every operand and writes the four slots in order; a slot holds the marker
exactly when it is slot 0 and T is 1. -/
def Obligations.ResolveFollowsItsRule : Prop :=
  ∀ (s : State) (i : Int) (t : Bool), i = s.arg0.toInt → t = s.arg1.getLsbD 0 →
    ∃ p, exec .resolve s = .next { s with
        err := .ok, errSeg := .none, errExpected := 0, errActual := 0, pal := p, palValid := true } ∧
      (∀ n, n < 4 → (p.slot n = 0x01000000 ↔ n = 0 ∧ t = true)) ∧
      (i = 0 → (t = false → p.pal0 = (Config.grey 0).setWidth 32) ∧ p.pal1 = (Config.grey 1).setWidth 32 ∧
        p.pal2 = (Config.grey 2).setWidth 32 ∧ p.pal3 = (Config.grey 3).setWidth 32) ∧
      (∀ n : Fin 9, (i = n.val + 1 ∨ (n = 0 ∧ (i < 0 ∨ 9 < i))) →
        (t = false → p.pal0 = (Config.ref (Config.preset n 0)).setWidth 32) ∧
        p.pal1 = (Config.ref (Config.preset n 1)).setWidth 32 ∧ p.pal2 = (Config.ref (Config.preset n 2)).setWidth 32 ∧
        p.pal3 = (Config.ref (Config.preset n 3)).setWidth 32)

/-- R174: a palette index outside 0..9 resolves exactly as index 1 with the same flag. -/
def Obligations.OutOfRangeIndexFallsBack : Prop :=
  ∀ (s : State) (a : Word), a.toInt < 0 ∨ 9 < a.toInt →
    ∃ p, exec .resolve { s with arg0 := a } = .next { s with
        arg0 := a, err := .ok, errSeg := .none, errExpected := 0, errActual := 0, pal := p, palValid := true } ∧
      exec .resolve { s with arg0 := 1 } = .next { s with
        arg0 := 1, err := .ok, errSeg := .none, errExpected := 0, errActual := 0, pal := p, palValid := true }

/-- R178, R179: after a RESOLVE, a pixel of TR takes the colour of the slot its value numbers, and takes the transparent marker
exactly when its value is 0 and the transparency flag was 1. While TR_VALID is 0 that the pixel is the one held is the model's choice
(log entry 19). -/
def Obligations.MarkerOnlyForPixelZero : Prop :=
  ∀ (s t : State) (y x : Nat), y < 8 → x < 8 → exec .resolve s = .next t →
    trColour t y x = t.pal.slot (t.tr.pixel y x).toNat ∧
      (trColour t y x = 0x01000000 ↔ t.tr.pixel y x = 0 ∧ s.arg1.getLsbD 0 = true)

/-! ## Frames and whole-machine rules -/

/-- R12, R148: what PARSE and PROBE leave alone. PARSE may change the ROM group, PROBE only PROBE_RESULT (and both STATUS.ERR and
the ERR registers). -/
def Obligations.ParseProbeFrame : Prop :=
  ∀ s t : State,
    (exec .parse s = .next t → t.probeResult = s.probeResult) ∧
    (exec .probe s = .next t → t.rom = s.rom ∧ t.romValid = s.romValid) ∧
    (exec .parse s = .next t ∨ exec .probe s = .next t →
      t.arg0 = s.arg0 ∧ t.arg1 = s.arg1 ∧ t.arg2 = s.arg2 ∧ t.trValid = s.trValid ∧ t.tilesValid = s.tilesValid ∧
      t.palValid = s.palValid ∧ t.tr = s.tr ∧ t.tileCount = s.tileCount ∧ t.pal = s.pal ∧
      (∀ a, t.inMem.read a = s.inMem.read a) ∧ (∀ a, t.tmem.read a = s.tmem.read a) ∧
      t.pending = s.pending ∧ t.reads = s.reads)

/-- R12, R148: what DECODE_TILE, LOAD_TILE and RESOLVE leave alone. The first two may change the TR group, RESOLVE the PAL group
(and all STATUS.ERR and the ERR registers). -/
def Obligations.TileRegisterAndPaletteFrame : Prop :=
  ∀ s t : State,
    (exec .decodeTile s = .next t ∨ exec .loadTile s = .next t → t.pal = s.pal ∧ t.palValid = s.palValid) ∧
    (exec .resolve s = .next t → t.tr = s.tr ∧ t.trValid = s.trValid) ∧
    (exec .decodeTile s = .next t ∨ exec .loadTile s = .next t ∨ exec .resolve s = .next t →
      t.arg0 = s.arg0 ∧ t.arg1 = s.arg1 ∧ t.arg2 = s.arg2 ∧ t.romValid = s.romValid ∧ t.tilesValid = s.tilesValid ∧
      t.probeResult = s.probeResult ∧ t.rom = s.rom ∧ t.tileCount = s.tileCount ∧
      (∀ a, t.inMem.read a = s.inMem.read a) ∧ (∀ a, t.tmem.read a = s.tmem.read a) ∧
      t.pending = s.pending ∧ t.reads = s.reads)

/-- R12, R64, R143: what EXTRACT_TILES leaves alone: every register but the TILES group, STATUS.ERR and the ERR registers, all of
IN, and every TMEM byte outside the records it writes (outside all of them when it raises an error). -/
def Obligations.ExtractTilesFrame : Prop :=
  ∀ s t : State, exec .extractTiles s = .next t →
    t.arg0 = s.arg0 ∧ t.arg1 = s.arg1 ∧ t.arg2 = s.arg2 ∧ t.romValid = s.romValid ∧ t.trValid = s.trValid ∧
      t.palValid = s.palValid ∧ t.probeResult = s.probeResult ∧ t.rom = s.rom ∧ t.tr = s.tr ∧ t.pal = s.pal ∧
      (∀ a, t.inMem.read a = s.inMem.read a) ∧ (∀ a, 80 * (s.arg1.toNat / 16) ≤ a → t.tmem.read a = s.tmem.read a) ∧
      (t.err ≠ .ok → t.tileCount = s.tileCount ∧ ∀ a, t.tmem.read a = s.tmem.read a) ∧
      t.pending = s.pending ∧ t.reads = s.reads

/-- R203, R204: a command that raises an error changes STATUS.ERR, the ERR registers and the VALID bit of its own group, which
becomes 0, and nothing else; PROBE and RESOLVE never raise; an illegal word clears no VALID bit. (That the members of the
invalidated group stay is R203's first sentence; no host read can see them, R26, log entry 7.) -/
def Obligations.FailedCommandInvalidates : Prop :=
  (∀ (i : Instr) (s t : State), exec i s = .next t → t.err ≠ .ok →
    (i = .parse ∧ t = { s with
      err := t.err, errSeg := t.errSeg, errExpected := t.errExpected, errActual := t.errActual, romValid := false }) ∨
    ((i = .decodeTile ∨ i = .loadTile) ∧ t = { s with
      err := t.err, errSeg := t.errSeg, errExpected := t.errExpected, errActual := t.errActual, trValid := false }) ∨
    (i = .extractTiles ∧ t = { s with
      err := t.err, errSeg := t.errSeg, errExpected := t.errExpected, errActual := t.errActual, tilesValid := false })) ∧
  ∀ (w : Word) (s t : State), decode w = none → issueCommand w s = .next t → ∀ g, t.groupValid g = s.groupValid g

/-- R25, R148: a command that finishes sets the VALID bit of its group, and only PARSE writes the ROM group, only DECODE_TILE and
LOAD_TILE the TR group, only EXTRACT_TILES TILE_COUNT and TMEM, only RESOLVE the PAL group. -/
def Obligations.GroupsAndTheirCommands : Prop :=
  ∀ (i : Instr) (s t : State), exec i s = .next t →
    (t.err = .ok → (i = .parse → t.romValid = true) ∧ (i = .decodeTile ∨ i = .loadTile → t.trValid = true) ∧
      (i = .extractTiles → t.tilesValid = true) ∧ (i = .resolve → t.palValid = true)) ∧
    (i ≠ .parse → t.rom = s.rom) ∧ (i ≠ .decodeTile → i ≠ .loadTile → t.tr = s.tr) ∧
    (i ≠ .extractTiles → t.tileCount = s.tileCount ∧ t.tmem = s.tmem) ∧ (i ≠ .resolve → t.pal = s.pal)

/-- R206: a command runs exactly as it would after any other outcome: STATUS.ERR and the ERR registers before it change nothing. -/
def Obligations.ErrorsAreNotSticky : Prop :=
  ∀ (i : Instr) (s : State) (e : ErrCode) (g : Segment) (x y : Word),
    exec i { s with err := e, errSeg := g, errExpected := x, errActual := y } = exec i s

/-- R63: no command's outcome depends on an IN byte outside the region ARG0 .. ARG0+ARG1−1: with other bytes there, the outcome is
the same but for IN itself. -/
def Obligations.BytesOutsideRegionDoNotMatter : Prop :=
  ∀ (i : Instr) (s : State) (m : Mem),
    (∀ a, s.arg0.toNat ≤ a → a < s.arg0.toNat + s.arg1.toNat → m.read a = s.inMem.read a) →
      (∀ t, exec i s = .next t → exec i { s with inMem := m } = .next { t with inMem := m }) ∧
      (∀ f, exec i s = .fault f → exec i { s with inMem := m } = .fault f)

/-- R78, R213, R223 (93_implementation_defined.md I4): a command, or a host byte read, that would read an IN byte not written since
reset is a model fault. The rules say only that the model faults: the fault's name (log entry 8), that a command's fault names an
unwritten byte of what it reads, and that PARSE and DECODE_TILE name the same one (log entry 15) are the model's choice. -/
def Obligations.UnwrittenInputFaults : Prop :=
  (∀ (s : State) (a : Word) (rest : List HostAction), a.toNat < Config.inSize → s.pending = .rdbIn a :: rest →
    s.inMem.read a.toNat = none → step s = .fault (.unwrittenIn a.toNat)) ∧
  ∀ (s : State) (base avail : Nat), base = s.arg0.toNat → avail = s.arg1.toNat → base + avail ≤ Config.inSize →
    (16 ≤ avail → ¬Written s.inMem base 16 →
      ∃ a, base ≤ a ∧ a < base + 16 ∧ s.inMem.read a = none ∧ exec .parse s = .fault (.unwrittenIn a) ∧
        exec .decodeTile s = .fault (.unwrittenIn a)) ∧
    (Config.probeMinLen ≤ avail → s.arg2.getLsbD 0 = true → ¬Written s.inMem base 4 →
      ∃ a, base ≤ a ∧ a < base + 4 ∧ s.inMem.read a = none ∧ exec .probe s = .fault (.unwrittenIn a)) ∧
    (¬Written s.inMem base (16 * (avail / 16)) →
      ∃ a, base ≤ a ∧ a < base + 16 * (avail / 16) ∧ s.inMem.read a = none ∧
        exec .extractTiles s = .fault (.unwrittenIn a))

/-- R229, R223: in a state that meets the invariant, once the region ARG0 .. ARG0+ARG1−1 has been written where it lies inside IN,
every command completes. -/
def Obligations.CommandsComplete : Prop :=
  ∀ (i : Instr) (s : State), s.Inv →
    (s.arg0.toNat + s.arg1.toNat ≤ Config.inSize → Written s.inMem s.arg0.toNat s.arg1.toNat) →
      Completes (exec i s)

/-! ## The invariant -/

/-- The invariant holds at reset (R220). -/
def Obligations.ResetMeetsInvariant : Prop := State.reset.Inv

/-- Every step keeps the invariant (R60, R64, R102, R109, R140, R147, R175, R201, R207): memories in form and inside their spaces,
the ERR registers consistent, and every valid group holding a result of its rules. -/
def Obligations.StepKeepsInvariant : Prop := ∀ s t : State, s.Inv → step s = .next t → t.Inv

/-- R207, R24: whatever the host does from a state that meets the invariant, STATUS.ERR never reads 4 or more than 5, and ERR_SEG
never reads more than 4 (R27). -/
def Obligations.ReservedCodesNeverRead : Prop :=
  ∀ (n : Nat) (s t : State), s.Inv → core.run n s = .next t →
    (t.statusWord.extractLsb' 0 4).toNat ∈ [0, 1, 2, 3, 5] ∧ (regValue t .errSeg).toNat ≤ 4

/-! ## Colours -/

/-- R178: the colour of pixel (y,x) of TR is PAL[TR_ROWy[2x+1:2x]]; the colour of TMEM pixel byte 80k+16+8y+x is PAL[that byte]; and
after a LOAD_TILE of tile k, in a state that meets the invariant, the two agree. While a VALID bit that a lookup depends on is 0, or
for k at or above TILE_COUNT, that the lookup takes the words and the byte held is the model's choice (log entry 19). -/
def Obligations.PixelColours : Prop :=
  (∀ (s : State) (y x v : Nat), y < 8 → x < 8 → v = (s.tr.row y).toNat / 4 ^ x % 4 →
    (v = 0 → trColour s y x = s.pal.pal0) ∧ (v = 1 → trColour s y x = s.pal.pal1) ∧
    (v = 2 → trColour s y x = s.pal.pal2) ∧ (v = 3 → trColour s y x = s.pal.pal3)) ∧
  (∀ (s : State) (k y x : Nat), y < 8 → x < 8 → ∀ b : Byte, s.tmem.read (80 * k + 16 + 8 * y + x) = some b →
    (b = 0 → tmemColour s k y x = some s.pal.pal0) ∧ (b = 1 → tmemColour s k y x = some s.pal.pal1) ∧
    (b = 2 → tmemColour s k y x = some s.pal.pal2) ∧ (b = 3 → tmemColour s k y x = some s.pal.pal3)) ∧
  ∀ (s t : State) (y x : Nat), s.Inv → exec .loadTile s = .next t → t.err = .ok → y < 8 → x < 8 →
    tmemColour s s.arg0.toNat y x = some (trColour t y x)
end

