-- ==== Sys2Proof/Laws/Decode.lean ====
section
/-! SUPPORT. The decoder as one condition on the two fields of a CMD word. -/

namespace Sys2Proof

theorem decode_eq (w : Word) : decode w = if rsvField w = 0 then instrOfOpcode (opField w) else none := by
  unfold decode decodeOrReason
  by_cases h : rsvField w = 0
  · rw [if_pos h, if_pos h]
    cases instrOfOpcode (opField w) <;> rfl
  · rw [if_neg h, if_neg h]

/-- A CMD word is its two fields. -/
theorem cmdWord_ext {v w : Word} (hr : rsvField v = rsvField w) (ho : opField v = opField w) : v = w := by
  apply BitVec.eq_of_getLsbD_eq
  intro i hi
  by_cases h : i < 8
  · have := congrArg (fun b => b.getLsbD i) ho
    simpa [opField, BitVec.getLsbD_extractLsb', h] using this
  · have := congrArg (fun b => b.getLsbD (i - 8)) hr
    simpa [rsvField, BitVec.getLsbD_extractLsb', show i - 8 < 24 by omega, show 8 + (i - 8) = i by omega] using this

end Sys2Proof
end

