-- ==== Sys2Proof/Laws/State.lean ====
section
/-! SUPPORT. One lemma per field per named update of the state, so that no proof unfolds a record update. -/

namespace Sys2Proof.Machine

variable (s : State)

@[simp] theorem State.raise_arg0 (e : ErrRecord) (g : Option Group) : (s.raise e g).arg0 = s.arg0 := rfl
@[simp] theorem State.raise_arg1 (e : ErrRecord) (g : Option Group) : (s.raise e g).arg1 = s.arg1 := rfl
@[simp] theorem State.raise_arg2 (e : ErrRecord) (g : Option Group) : (s.raise e g).arg2 = s.arg2 := rfl
@[simp] theorem State.raise_err (e : ErrRecord) (g : Option Group) : (s.raise e g).err = e.code := rfl
@[simp] theorem State.raise_romValid (e : ErrRecord) (g : Option Group) : (s.raise e g).romValid = (s.romValid && decide (g ≠ some .rom)) := rfl
@[simp] theorem State.raise_trValid (e : ErrRecord) (g : Option Group) : (s.raise e g).trValid = (s.trValid && decide (g ≠ some .tr)) := rfl
@[simp] theorem State.raise_tilesValid (e : ErrRecord) (g : Option Group) : (s.raise e g).tilesValid = (s.tilesValid && decide (g ≠ some .tiles)) := rfl
@[simp] theorem State.raise_palValid (e : ErrRecord) (g : Option Group) : (s.raise e g).palValid = (s.palValid && decide (g ≠ some .pal)) := rfl
@[simp] theorem State.raise_errSeg (e : ErrRecord) (g : Option Group) : (s.raise e g).errSeg = e.seg := rfl
@[simp] theorem State.raise_errExpected (e : ErrRecord) (g : Option Group) : (s.raise e g).errExpected = e.expected := rfl
@[simp] theorem State.raise_errActual (e : ErrRecord) (g : Option Group) : (s.raise e g).errActual = e.actual := rfl
@[simp] theorem State.raise_probeResult (e : ErrRecord) (g : Option Group) : (s.raise e g).probeResult = s.probeResult := rfl
@[simp] theorem State.raise_rom (e : ErrRecord) (g : Option Group) : (s.raise e g).rom = s.rom := rfl
@[simp] theorem State.raise_tr (e : ErrRecord) (g : Option Group) : (s.raise e g).tr = s.tr := rfl
@[simp] theorem State.raise_tileCount (e : ErrRecord) (g : Option Group) : (s.raise e g).tileCount = s.tileCount := rfl
@[simp] theorem State.raise_tmem (e : ErrRecord) (g : Option Group) : (s.raise e g).tmem = s.tmem := rfl
@[simp] theorem State.raise_pal (e : ErrRecord) (g : Option Group) : (s.raise e g).pal = s.pal := rfl
@[simp] theorem State.raise_inMem (e : ErrRecord) (g : Option Group) : (s.raise e g).inMem = s.inMem := rfl
@[simp] theorem State.raise_pending (e : ErrRecord) (g : Option Group) : (s.raise e g).pending = s.pending := rfl
@[simp] theorem State.raise_reads (e : ErrRecord) (g : Option Group) : (s.raise e g).reads = s.reads := rfl

@[simp] theorem State.finish_arg0 : (s.finish).arg0 = s.arg0 := rfl
@[simp] theorem State.finish_arg1 : (s.finish).arg1 = s.arg1 := rfl
@[simp] theorem State.finish_arg2 : (s.finish).arg2 = s.arg2 := rfl
@[simp] theorem State.finish_err : (s.finish).err = .ok := rfl
@[simp] theorem State.finish_romValid : (s.finish).romValid = s.romValid := rfl
@[simp] theorem State.finish_trValid : (s.finish).trValid = s.trValid := rfl
@[simp] theorem State.finish_tilesValid : (s.finish).tilesValid = s.tilesValid := rfl
@[simp] theorem State.finish_palValid : (s.finish).palValid = s.palValid := rfl
@[simp] theorem State.finish_errSeg : (s.finish).errSeg = .none := rfl
@[simp] theorem State.finish_errExpected : (s.finish).errExpected = 0 := rfl
@[simp] theorem State.finish_errActual : (s.finish).errActual = 0 := rfl
@[simp] theorem State.finish_probeResult : (s.finish).probeResult = s.probeResult := rfl
@[simp] theorem State.finish_rom : (s.finish).rom = s.rom := rfl
@[simp] theorem State.finish_tr : (s.finish).tr = s.tr := rfl
@[simp] theorem State.finish_tileCount : (s.finish).tileCount = s.tileCount := rfl
@[simp] theorem State.finish_tmem : (s.finish).tmem = s.tmem := rfl
@[simp] theorem State.finish_pal : (s.finish).pal = s.pal := rfl
@[simp] theorem State.finish_inMem : (s.finish).inMem = s.inMem := rfl
@[simp] theorem State.finish_pending : (s.finish).pending = s.pending := rfl
@[simp] theorem State.finish_reads : (s.finish).reads = s.reads := rfl

@[simp] theorem State.withRom_arg0 (r : RomGroup) : (s.withRom r).arg0 = s.arg0 := rfl
@[simp] theorem State.withRom_arg1 (r : RomGroup) : (s.withRom r).arg1 = s.arg1 := rfl
@[simp] theorem State.withRom_arg2 (r : RomGroup) : (s.withRom r).arg2 = s.arg2 := rfl
@[simp] theorem State.withRom_err (r : RomGroup) : (s.withRom r).err = s.err := rfl
@[simp] theorem State.withRom_romValid (r : RomGroup) : (s.withRom r).romValid = true := rfl
@[simp] theorem State.withRom_trValid (r : RomGroup) : (s.withRom r).trValid = s.trValid := rfl
@[simp] theorem State.withRom_tilesValid (r : RomGroup) : (s.withRom r).tilesValid = s.tilesValid := rfl
@[simp] theorem State.withRom_palValid (r : RomGroup) : (s.withRom r).palValid = s.palValid := rfl
@[simp] theorem State.withRom_errSeg (r : RomGroup) : (s.withRom r).errSeg = s.errSeg := rfl
@[simp] theorem State.withRom_errExpected (r : RomGroup) : (s.withRom r).errExpected = s.errExpected := rfl
@[simp] theorem State.withRom_errActual (r : RomGroup) : (s.withRom r).errActual = s.errActual := rfl
@[simp] theorem State.withRom_probeResult (r : RomGroup) : (s.withRom r).probeResult = s.probeResult := rfl
@[simp] theorem State.withRom_rom (r : RomGroup) : (s.withRom r).rom = r := rfl
@[simp] theorem State.withRom_tr (r : RomGroup) : (s.withRom r).tr = s.tr := rfl
@[simp] theorem State.withRom_tileCount (r : RomGroup) : (s.withRom r).tileCount = s.tileCount := rfl
@[simp] theorem State.withRom_tmem (r : RomGroup) : (s.withRom r).tmem = s.tmem := rfl
@[simp] theorem State.withRom_pal (r : RomGroup) : (s.withRom r).pal = s.pal := rfl
@[simp] theorem State.withRom_inMem (r : RomGroup) : (s.withRom r).inMem = s.inMem := rfl
@[simp] theorem State.withRom_pending (r : RomGroup) : (s.withRom r).pending = s.pending := rfl
@[simp] theorem State.withRom_reads (r : RomGroup) : (s.withRom r).reads = s.reads := rfl

@[simp] theorem State.withTr_arg0 (t : TrGroup) : (s.withTr t).arg0 = s.arg0 := rfl
@[simp] theorem State.withTr_arg1 (t : TrGroup) : (s.withTr t).arg1 = s.arg1 := rfl
@[simp] theorem State.withTr_arg2 (t : TrGroup) : (s.withTr t).arg2 = s.arg2 := rfl
@[simp] theorem State.withTr_err (t : TrGroup) : (s.withTr t).err = s.err := rfl
@[simp] theorem State.withTr_romValid (t : TrGroup) : (s.withTr t).romValid = s.romValid := rfl
@[simp] theorem State.withTr_trValid (t : TrGroup) : (s.withTr t).trValid = true := rfl
@[simp] theorem State.withTr_tilesValid (t : TrGroup) : (s.withTr t).tilesValid = s.tilesValid := rfl
@[simp] theorem State.withTr_palValid (t : TrGroup) : (s.withTr t).palValid = s.palValid := rfl
@[simp] theorem State.withTr_errSeg (t : TrGroup) : (s.withTr t).errSeg = s.errSeg := rfl
@[simp] theorem State.withTr_errExpected (t : TrGroup) : (s.withTr t).errExpected = s.errExpected := rfl
@[simp] theorem State.withTr_errActual (t : TrGroup) : (s.withTr t).errActual = s.errActual := rfl
@[simp] theorem State.withTr_probeResult (t : TrGroup) : (s.withTr t).probeResult = s.probeResult := rfl
@[simp] theorem State.withTr_rom (t : TrGroup) : (s.withTr t).rom = s.rom := rfl
@[simp] theorem State.withTr_tr (t : TrGroup) : (s.withTr t).tr = t := rfl
@[simp] theorem State.withTr_tileCount (t : TrGroup) : (s.withTr t).tileCount = s.tileCount := rfl
@[simp] theorem State.withTr_tmem (t : TrGroup) : (s.withTr t).tmem = s.tmem := rfl
@[simp] theorem State.withTr_pal (t : TrGroup) : (s.withTr t).pal = s.pal := rfl
@[simp] theorem State.withTr_inMem (t : TrGroup) : (s.withTr t).inMem = s.inMem := rfl
@[simp] theorem State.withTr_pending (t : TrGroup) : (s.withTr t).pending = s.pending := rfl
@[simp] theorem State.withTr_reads (t : TrGroup) : (s.withTr t).reads = s.reads := rfl

@[simp] theorem State.withTiles_arg0 (n : Word) (m : Mem) : (s.withTiles n m).arg0 = s.arg0 := rfl
@[simp] theorem State.withTiles_arg1 (n : Word) (m : Mem) : (s.withTiles n m).arg1 = s.arg1 := rfl
@[simp] theorem State.withTiles_arg2 (n : Word) (m : Mem) : (s.withTiles n m).arg2 = s.arg2 := rfl
@[simp] theorem State.withTiles_err (n : Word) (m : Mem) : (s.withTiles n m).err = s.err := rfl
@[simp] theorem State.withTiles_romValid (n : Word) (m : Mem) : (s.withTiles n m).romValid = s.romValid := rfl
@[simp] theorem State.withTiles_trValid (n : Word) (m : Mem) : (s.withTiles n m).trValid = s.trValid := rfl
@[simp] theorem State.withTiles_tilesValid (n : Word) (m : Mem) : (s.withTiles n m).tilesValid = true := rfl
@[simp] theorem State.withTiles_palValid (n : Word) (m : Mem) : (s.withTiles n m).palValid = s.palValid := rfl
@[simp] theorem State.withTiles_errSeg (n : Word) (m : Mem) : (s.withTiles n m).errSeg = s.errSeg := rfl
@[simp] theorem State.withTiles_errExpected (n : Word) (m : Mem) : (s.withTiles n m).errExpected = s.errExpected := rfl
@[simp] theorem State.withTiles_errActual (n : Word) (m : Mem) : (s.withTiles n m).errActual = s.errActual := rfl
@[simp] theorem State.withTiles_probeResult (n : Word) (m : Mem) : (s.withTiles n m).probeResult = s.probeResult := rfl
@[simp] theorem State.withTiles_rom (n : Word) (m : Mem) : (s.withTiles n m).rom = s.rom := rfl
@[simp] theorem State.withTiles_tr (n : Word) (m : Mem) : (s.withTiles n m).tr = s.tr := rfl
@[simp] theorem State.withTiles_tileCount (n : Word) (m : Mem) : (s.withTiles n m).tileCount = n := rfl
@[simp] theorem State.withTiles_tmem (n : Word) (m : Mem) : (s.withTiles n m).tmem = m := rfl
@[simp] theorem State.withTiles_pal (n : Word) (m : Mem) : (s.withTiles n m).pal = s.pal := rfl
@[simp] theorem State.withTiles_inMem (n : Word) (m : Mem) : (s.withTiles n m).inMem = s.inMem := rfl
@[simp] theorem State.withTiles_pending (n : Word) (m : Mem) : (s.withTiles n m).pending = s.pending := rfl
@[simp] theorem State.withTiles_reads (n : Word) (m : Mem) : (s.withTiles n m).reads = s.reads := rfl

@[simp] theorem State.withPal_arg0 (p : PalGroup) : (s.withPal p).arg0 = s.arg0 := rfl
@[simp] theorem State.withPal_arg1 (p : PalGroup) : (s.withPal p).arg1 = s.arg1 := rfl
@[simp] theorem State.withPal_arg2 (p : PalGroup) : (s.withPal p).arg2 = s.arg2 := rfl
@[simp] theorem State.withPal_err (p : PalGroup) : (s.withPal p).err = s.err := rfl
@[simp] theorem State.withPal_romValid (p : PalGroup) : (s.withPal p).romValid = s.romValid := rfl
@[simp] theorem State.withPal_trValid (p : PalGroup) : (s.withPal p).trValid = s.trValid := rfl
@[simp] theorem State.withPal_tilesValid (p : PalGroup) : (s.withPal p).tilesValid = s.tilesValid := rfl
@[simp] theorem State.withPal_palValid (p : PalGroup) : (s.withPal p).palValid = true := rfl
@[simp] theorem State.withPal_errSeg (p : PalGroup) : (s.withPal p).errSeg = s.errSeg := rfl
@[simp] theorem State.withPal_errExpected (p : PalGroup) : (s.withPal p).errExpected = s.errExpected := rfl
@[simp] theorem State.withPal_errActual (p : PalGroup) : (s.withPal p).errActual = s.errActual := rfl
@[simp] theorem State.withPal_probeResult (p : PalGroup) : (s.withPal p).probeResult = s.probeResult := rfl
@[simp] theorem State.withPal_rom (p : PalGroup) : (s.withPal p).rom = s.rom := rfl
@[simp] theorem State.withPal_tr (p : PalGroup) : (s.withPal p).tr = s.tr := rfl
@[simp] theorem State.withPal_tileCount (p : PalGroup) : (s.withPal p).tileCount = s.tileCount := rfl
@[simp] theorem State.withPal_tmem (p : PalGroup) : (s.withPal p).tmem = s.tmem := rfl
@[simp] theorem State.withPal_pal (p : PalGroup) : (s.withPal p).pal = p := rfl
@[simp] theorem State.withPal_inMem (p : PalGroup) : (s.withPal p).inMem = s.inMem := rfl
@[simp] theorem State.withPal_pending (p : PalGroup) : (s.withPal p).pending = s.pending := rfl
@[simp] theorem State.withPal_reads (p : PalGroup) : (s.withPal p).reads = s.reads := rfl

@[simp] theorem State.withProbe_arg0 (b : Bool) : (s.withProbe b).arg0 = s.arg0 := rfl
@[simp] theorem State.withProbe_arg1 (b : Bool) : (s.withProbe b).arg1 = s.arg1 := rfl
@[simp] theorem State.withProbe_arg2 (b : Bool) : (s.withProbe b).arg2 = s.arg2 := rfl
@[simp] theorem State.withProbe_err (b : Bool) : (s.withProbe b).err = s.err := rfl
@[simp] theorem State.withProbe_romValid (b : Bool) : (s.withProbe b).romValid = s.romValid := rfl
@[simp] theorem State.withProbe_trValid (b : Bool) : (s.withProbe b).trValid = s.trValid := rfl
@[simp] theorem State.withProbe_tilesValid (b : Bool) : (s.withProbe b).tilesValid = s.tilesValid := rfl
@[simp] theorem State.withProbe_palValid (b : Bool) : (s.withProbe b).palValid = s.palValid := rfl
@[simp] theorem State.withProbe_errSeg (b : Bool) : (s.withProbe b).errSeg = s.errSeg := rfl
@[simp] theorem State.withProbe_errExpected (b : Bool) : (s.withProbe b).errExpected = s.errExpected := rfl
@[simp] theorem State.withProbe_errActual (b : Bool) : (s.withProbe b).errActual = s.errActual := rfl
@[simp] theorem State.withProbe_probeResult (b : Bool) : (s.withProbe b).probeResult = b := rfl
@[simp] theorem State.withProbe_rom (b : Bool) : (s.withProbe b).rom = s.rom := rfl
@[simp] theorem State.withProbe_tr (b : Bool) : (s.withProbe b).tr = s.tr := rfl
@[simp] theorem State.withProbe_tileCount (b : Bool) : (s.withProbe b).tileCount = s.tileCount := rfl
@[simp] theorem State.withProbe_tmem (b : Bool) : (s.withProbe b).tmem = s.tmem := rfl
@[simp] theorem State.withProbe_pal (b : Bool) : (s.withProbe b).pal = s.pal := rfl
@[simp] theorem State.withProbe_inMem (b : Bool) : (s.withProbe b).inMem = s.inMem := rfl
@[simp] theorem State.withProbe_pending (b : Bool) : (s.withProbe b).pending = s.pending := rfl
@[simp] theorem State.withProbe_reads (b : Bool) : (s.withProbe b).reads = s.reads := rfl

@[simp] theorem State.withArg0_arg0 (v : Word) : (s.withArg0 v).arg0 = v := rfl
@[simp] theorem State.withArg0_arg1 (v : Word) : (s.withArg0 v).arg1 = s.arg1 := rfl
@[simp] theorem State.withArg0_arg2 (v : Word) : (s.withArg0 v).arg2 = s.arg2 := rfl
@[simp] theorem State.withArg0_err (v : Word) : (s.withArg0 v).err = s.err := rfl
@[simp] theorem State.withArg0_romValid (v : Word) : (s.withArg0 v).romValid = s.romValid := rfl
@[simp] theorem State.withArg0_trValid (v : Word) : (s.withArg0 v).trValid = s.trValid := rfl
@[simp] theorem State.withArg0_tilesValid (v : Word) : (s.withArg0 v).tilesValid = s.tilesValid := rfl
@[simp] theorem State.withArg0_palValid (v : Word) : (s.withArg0 v).palValid = s.palValid := rfl
@[simp] theorem State.withArg0_errSeg (v : Word) : (s.withArg0 v).errSeg = s.errSeg := rfl
@[simp] theorem State.withArg0_errExpected (v : Word) : (s.withArg0 v).errExpected = s.errExpected := rfl
@[simp] theorem State.withArg0_errActual (v : Word) : (s.withArg0 v).errActual = s.errActual := rfl
@[simp] theorem State.withArg0_probeResult (v : Word) : (s.withArg0 v).probeResult = s.probeResult := rfl
@[simp] theorem State.withArg0_rom (v : Word) : (s.withArg0 v).rom = s.rom := rfl
@[simp] theorem State.withArg0_tr (v : Word) : (s.withArg0 v).tr = s.tr := rfl
@[simp] theorem State.withArg0_tileCount (v : Word) : (s.withArg0 v).tileCount = s.tileCount := rfl
@[simp] theorem State.withArg0_tmem (v : Word) : (s.withArg0 v).tmem = s.tmem := rfl
@[simp] theorem State.withArg0_pal (v : Word) : (s.withArg0 v).pal = s.pal := rfl
@[simp] theorem State.withArg0_inMem (v : Word) : (s.withArg0 v).inMem = s.inMem := rfl
@[simp] theorem State.withArg0_pending (v : Word) : (s.withArg0 v).pending = s.pending := rfl
@[simp] theorem State.withArg0_reads (v : Word) : (s.withArg0 v).reads = s.reads := rfl

@[simp] theorem State.withArg1_arg0 (v : Word) : (s.withArg1 v).arg0 = s.arg0 := rfl
@[simp] theorem State.withArg1_arg1 (v : Word) : (s.withArg1 v).arg1 = v := rfl
@[simp] theorem State.withArg1_arg2 (v : Word) : (s.withArg1 v).arg2 = s.arg2 := rfl
@[simp] theorem State.withArg1_err (v : Word) : (s.withArg1 v).err = s.err := rfl
@[simp] theorem State.withArg1_romValid (v : Word) : (s.withArg1 v).romValid = s.romValid := rfl
@[simp] theorem State.withArg1_trValid (v : Word) : (s.withArg1 v).trValid = s.trValid := rfl
@[simp] theorem State.withArg1_tilesValid (v : Word) : (s.withArg1 v).tilesValid = s.tilesValid := rfl
@[simp] theorem State.withArg1_palValid (v : Word) : (s.withArg1 v).palValid = s.palValid := rfl
@[simp] theorem State.withArg1_errSeg (v : Word) : (s.withArg1 v).errSeg = s.errSeg := rfl
@[simp] theorem State.withArg1_errExpected (v : Word) : (s.withArg1 v).errExpected = s.errExpected := rfl
@[simp] theorem State.withArg1_errActual (v : Word) : (s.withArg1 v).errActual = s.errActual := rfl
@[simp] theorem State.withArg1_probeResult (v : Word) : (s.withArg1 v).probeResult = s.probeResult := rfl
@[simp] theorem State.withArg1_rom (v : Word) : (s.withArg1 v).rom = s.rom := rfl
@[simp] theorem State.withArg1_tr (v : Word) : (s.withArg1 v).tr = s.tr := rfl
@[simp] theorem State.withArg1_tileCount (v : Word) : (s.withArg1 v).tileCount = s.tileCount := rfl
@[simp] theorem State.withArg1_tmem (v : Word) : (s.withArg1 v).tmem = s.tmem := rfl
@[simp] theorem State.withArg1_pal (v : Word) : (s.withArg1 v).pal = s.pal := rfl
@[simp] theorem State.withArg1_inMem (v : Word) : (s.withArg1 v).inMem = s.inMem := rfl
@[simp] theorem State.withArg1_pending (v : Word) : (s.withArg1 v).pending = s.pending := rfl
@[simp] theorem State.withArg1_reads (v : Word) : (s.withArg1 v).reads = s.reads := rfl

@[simp] theorem State.withArg2_arg0 (v : Word) : (s.withArg2 v).arg0 = s.arg0 := rfl
@[simp] theorem State.withArg2_arg1 (v : Word) : (s.withArg2 v).arg1 = s.arg1 := rfl
@[simp] theorem State.withArg2_arg2 (v : Word) : (s.withArg2 v).arg2 = v := rfl
@[simp] theorem State.withArg2_err (v : Word) : (s.withArg2 v).err = s.err := rfl
@[simp] theorem State.withArg2_romValid (v : Word) : (s.withArg2 v).romValid = s.romValid := rfl
@[simp] theorem State.withArg2_trValid (v : Word) : (s.withArg2 v).trValid = s.trValid := rfl
@[simp] theorem State.withArg2_tilesValid (v : Word) : (s.withArg2 v).tilesValid = s.tilesValid := rfl
@[simp] theorem State.withArg2_palValid (v : Word) : (s.withArg2 v).palValid = s.palValid := rfl
@[simp] theorem State.withArg2_errSeg (v : Word) : (s.withArg2 v).errSeg = s.errSeg := rfl
@[simp] theorem State.withArg2_errExpected (v : Word) : (s.withArg2 v).errExpected = s.errExpected := rfl
@[simp] theorem State.withArg2_errActual (v : Word) : (s.withArg2 v).errActual = s.errActual := rfl
@[simp] theorem State.withArg2_probeResult (v : Word) : (s.withArg2 v).probeResult = s.probeResult := rfl
@[simp] theorem State.withArg2_rom (v : Word) : (s.withArg2 v).rom = s.rom := rfl
@[simp] theorem State.withArg2_tr (v : Word) : (s.withArg2 v).tr = s.tr := rfl
@[simp] theorem State.withArg2_tileCount (v : Word) : (s.withArg2 v).tileCount = s.tileCount := rfl
@[simp] theorem State.withArg2_tmem (v : Word) : (s.withArg2 v).tmem = s.tmem := rfl
@[simp] theorem State.withArg2_pal (v : Word) : (s.withArg2 v).pal = s.pal := rfl
@[simp] theorem State.withArg2_inMem (v : Word) : (s.withArg2 v).inMem = s.inMem := rfl
@[simp] theorem State.withArg2_pending (v : Word) : (s.withArg2 v).pending = s.pending := rfl
@[simp] theorem State.withArg2_reads (v : Word) : (s.withArg2 v).reads = s.reads := rfl

@[simp] theorem State.withIn_arg0 (m : Mem) : (s.withIn m).arg0 = s.arg0 := rfl
@[simp] theorem State.withIn_arg1 (m : Mem) : (s.withIn m).arg1 = s.arg1 := rfl
@[simp] theorem State.withIn_arg2 (m : Mem) : (s.withIn m).arg2 = s.arg2 := rfl
@[simp] theorem State.withIn_err (m : Mem) : (s.withIn m).err = s.err := rfl
@[simp] theorem State.withIn_romValid (m : Mem) : (s.withIn m).romValid = s.romValid := rfl
@[simp] theorem State.withIn_trValid (m : Mem) : (s.withIn m).trValid = s.trValid := rfl
@[simp] theorem State.withIn_tilesValid (m : Mem) : (s.withIn m).tilesValid = s.tilesValid := rfl
@[simp] theorem State.withIn_palValid (m : Mem) : (s.withIn m).palValid = s.palValid := rfl
@[simp] theorem State.withIn_errSeg (m : Mem) : (s.withIn m).errSeg = s.errSeg := rfl
@[simp] theorem State.withIn_errExpected (m : Mem) : (s.withIn m).errExpected = s.errExpected := rfl
@[simp] theorem State.withIn_errActual (m : Mem) : (s.withIn m).errActual = s.errActual := rfl
@[simp] theorem State.withIn_probeResult (m : Mem) : (s.withIn m).probeResult = s.probeResult := rfl
@[simp] theorem State.withIn_rom (m : Mem) : (s.withIn m).rom = s.rom := rfl
@[simp] theorem State.withIn_tr (m : Mem) : (s.withIn m).tr = s.tr := rfl
@[simp] theorem State.withIn_tileCount (m : Mem) : (s.withIn m).tileCount = s.tileCount := rfl
@[simp] theorem State.withIn_tmem (m : Mem) : (s.withIn m).tmem = s.tmem := rfl
@[simp] theorem State.withIn_pal (m : Mem) : (s.withIn m).pal = s.pal := rfl
@[simp] theorem State.withIn_inMem (m : Mem) : (s.withIn m).inMem = m := rfl
@[simp] theorem State.withIn_pending (m : Mem) : (s.withIn m).pending = s.pending := rfl
@[simp] theorem State.withIn_reads (m : Mem) : (s.withIn m).reads = s.reads := rfl

@[simp] theorem State.withPending_arg0 (l : List HostAction) : (s.withPending l).arg0 = s.arg0 := rfl
@[simp] theorem State.withPending_arg1 (l : List HostAction) : (s.withPending l).arg1 = s.arg1 := rfl
@[simp] theorem State.withPending_arg2 (l : List HostAction) : (s.withPending l).arg2 = s.arg2 := rfl
@[simp] theorem State.withPending_err (l : List HostAction) : (s.withPending l).err = s.err := rfl
@[simp] theorem State.withPending_romValid (l : List HostAction) : (s.withPending l).romValid = s.romValid := rfl
@[simp] theorem State.withPending_trValid (l : List HostAction) : (s.withPending l).trValid = s.trValid := rfl
@[simp] theorem State.withPending_tilesValid (l : List HostAction) : (s.withPending l).tilesValid = s.tilesValid := rfl
@[simp] theorem State.withPending_palValid (l : List HostAction) : (s.withPending l).palValid = s.palValid := rfl
@[simp] theorem State.withPending_errSeg (l : List HostAction) : (s.withPending l).errSeg = s.errSeg := rfl
@[simp] theorem State.withPending_errExpected (l : List HostAction) : (s.withPending l).errExpected = s.errExpected := rfl
@[simp] theorem State.withPending_errActual (l : List HostAction) : (s.withPending l).errActual = s.errActual := rfl
@[simp] theorem State.withPending_probeResult (l : List HostAction) : (s.withPending l).probeResult = s.probeResult := rfl
@[simp] theorem State.withPending_rom (l : List HostAction) : (s.withPending l).rom = s.rom := rfl
@[simp] theorem State.withPending_tr (l : List HostAction) : (s.withPending l).tr = s.tr := rfl
@[simp] theorem State.withPending_tileCount (l : List HostAction) : (s.withPending l).tileCount = s.tileCount := rfl
@[simp] theorem State.withPending_tmem (l : List HostAction) : (s.withPending l).tmem = s.tmem := rfl
@[simp] theorem State.withPending_pal (l : List HostAction) : (s.withPending l).pal = s.pal := rfl
@[simp] theorem State.withPending_inMem (l : List HostAction) : (s.withPending l).inMem = s.inMem := rfl
@[simp] theorem State.withPending_pending (l : List HostAction) : (s.withPending l).pending = l := rfl
@[simp] theorem State.withPending_reads (l : List HostAction) : (s.withPending l).reads = s.reads := rfl

@[simp] theorem State.withRead_arg0 (v : ReadValue) : (s.withRead v).arg0 = s.arg0 := rfl
@[simp] theorem State.withRead_arg1 (v : ReadValue) : (s.withRead v).arg1 = s.arg1 := rfl
@[simp] theorem State.withRead_arg2 (v : ReadValue) : (s.withRead v).arg2 = s.arg2 := rfl
@[simp] theorem State.withRead_err (v : ReadValue) : (s.withRead v).err = s.err := rfl
@[simp] theorem State.withRead_romValid (v : ReadValue) : (s.withRead v).romValid = s.romValid := rfl
@[simp] theorem State.withRead_trValid (v : ReadValue) : (s.withRead v).trValid = s.trValid := rfl
@[simp] theorem State.withRead_tilesValid (v : ReadValue) : (s.withRead v).tilesValid = s.tilesValid := rfl
@[simp] theorem State.withRead_palValid (v : ReadValue) : (s.withRead v).palValid = s.palValid := rfl
@[simp] theorem State.withRead_errSeg (v : ReadValue) : (s.withRead v).errSeg = s.errSeg := rfl
@[simp] theorem State.withRead_errExpected (v : ReadValue) : (s.withRead v).errExpected = s.errExpected := rfl
@[simp] theorem State.withRead_errActual (v : ReadValue) : (s.withRead v).errActual = s.errActual := rfl
@[simp] theorem State.withRead_probeResult (v : ReadValue) : (s.withRead v).probeResult = s.probeResult := rfl
@[simp] theorem State.withRead_rom (v : ReadValue) : (s.withRead v).rom = s.rom := rfl
@[simp] theorem State.withRead_tr (v : ReadValue) : (s.withRead v).tr = s.tr := rfl
@[simp] theorem State.withRead_tileCount (v : ReadValue) : (s.withRead v).tileCount = s.tileCount := rfl
@[simp] theorem State.withRead_tmem (v : ReadValue) : (s.withRead v).tmem = s.tmem := rfl
@[simp] theorem State.withRead_pal (v : ReadValue) : (s.withRead v).pal = s.pal := rfl
@[simp] theorem State.withRead_inMem (v : ReadValue) : (s.withRead v).inMem = s.inMem := rfl
@[simp] theorem State.withRead_pending (v : ReadValue) : (s.withRead v).pending = s.pending := rfl
@[simp] theorem State.withRead_reads (v : ReadValue) : (s.withRead v).reads = v :: s.reads := rfl

@[simp] theorem State.afterReset_arg0 : (s.afterReset).arg0 = State.reset.arg0 := rfl
@[simp] theorem State.afterReset_arg1 : (s.afterReset).arg1 = State.reset.arg1 := rfl
@[simp] theorem State.afterReset_arg2 : (s.afterReset).arg2 = State.reset.arg2 := rfl
@[simp] theorem State.afterReset_err : (s.afterReset).err = State.reset.err := rfl
@[simp] theorem State.afterReset_romValid : (s.afterReset).romValid = State.reset.romValid := rfl
@[simp] theorem State.afterReset_trValid : (s.afterReset).trValid = State.reset.trValid := rfl
@[simp] theorem State.afterReset_tilesValid : (s.afterReset).tilesValid = State.reset.tilesValid := rfl
@[simp] theorem State.afterReset_palValid : (s.afterReset).palValid = State.reset.palValid := rfl
@[simp] theorem State.afterReset_errSeg : (s.afterReset).errSeg = State.reset.errSeg := rfl
@[simp] theorem State.afterReset_errExpected : (s.afterReset).errExpected = State.reset.errExpected := rfl
@[simp] theorem State.afterReset_errActual : (s.afterReset).errActual = State.reset.errActual := rfl
@[simp] theorem State.afterReset_probeResult : (s.afterReset).probeResult = State.reset.probeResult := rfl
@[simp] theorem State.afterReset_rom : (s.afterReset).rom = State.reset.rom := rfl
@[simp] theorem State.afterReset_tr : (s.afterReset).tr = State.reset.tr := rfl
@[simp] theorem State.afterReset_tileCount : (s.afterReset).tileCount = State.reset.tileCount := rfl
@[simp] theorem State.afterReset_tmem : (s.afterReset).tmem = State.reset.tmem := rfl
@[simp] theorem State.afterReset_pal : (s.afterReset).pal = State.reset.pal := rfl
@[simp] theorem State.afterReset_inMem : (s.afterReset).inMem = State.reset.inMem := rfl
@[simp] theorem State.afterReset_pending : (s.afterReset).pending = s.pending := rfl
@[simp] theorem State.afterReset_reads : (s.afterReset).reads = s.reads := rfl

end Sys2Proof.Machine
end

