-- ==== Sys2Proof/Laws/Memory.lean ====
section
/-! SUPPORT. What the memory operations do: read after write, the canonical form, and byte sequences. -/

namespace Sys2Proof.Machine

theorem Mem.read_write (m : Mem) (a b : Nat) (v : Byte) :
    (m.write a v).read b = if b = a then some v else m.read b := by
  induction m with
  | nil => simp [Mem.write, Mem.read]
  | cons c m ih =>
    obtain ⟨k, w⟩ := c
    simp only [Mem.write]
    split
    · simp [Mem.read]
    · split
      · subst a
        simp only [Mem.read]
        split <;> rfl
      · simp only [Mem.read, ih]
        split
        · subst b
          rw [if_neg (by omega)]
        · rfl

theorem Mem.read_write_same (m : Mem) (a : Nat) (v : Byte) : (m.write a v).read a = some v := by
  simp [Mem.read_write]

theorem Mem.read_write_other (m : Mem) {a b : Nat} (v : Byte) (h : b ≠ a) : (m.write a v).read b = m.read b := by
  simp [Mem.read_write, h]

theorem Mem.mem_write {m : Mem} {a : Nat} {v : Byte} {c : Host.Cell} (h : c ∈ m.write a v) : c = (a, v) ∨ c ∈ m := by
  induction m with
  | nil => simpa [Mem.write] using h
  | cons d m ih =>
    obtain ⟨k, w⟩ := d
    simp only [Mem.write] at h
    split at h
    · simpa using h
    · split at h
      · simp only [List.mem_cons] at h ⊢
        rcases h with h | h
        · exact .inl h
        · exact .inr (.inr h)
      · simp only [List.mem_cons] at h ⊢
        rcases h with h | h
        · exact .inr (.inl h)
        · rcases ih h with h | h
          · exact .inl h
          · exact .inr (.inr h)

theorem Mem.write_wf {m : Mem} (h : m.wf) (a : Nat) (v : Byte) : (m.write a v).wf := by
  induction m with
  | nil => simp [Mem.wf, Mem.write]
  | cons d m ih =>
    obtain ⟨k, w⟩ := d
    obtain ⟨hd, tl⟩ := List.pairwise_cons.1 h
    simp only [Mem.write]
    split
    · rename_i lt
      refine List.pairwise_cons.2 ⟨fun c hc => ?_, h⟩
      rcases List.mem_cons.1 hc with rfl | hc
      · exact lt
      · exact Nat.lt_trans lt (hd c hc)
    · split
      · rename_i eq
        subst eq
        exact List.pairwise_cons.2 ⟨hd, tl⟩
      · rename_i ge ne
        refine List.pairwise_cons.2 ⟨fun c hc => ?_, ih tl⟩
        rcases Mem.mem_write hc with rfl | hc
        · show k < a
          omega
        · exact hd c hc

theorem State.reset_inMem_wf : State.reset.inMem.wf := List.Pairwise.nil

theorem State.reset_tmem_wf : State.reset.tmem.wf := List.Pairwise.nil

theorem writeBytes_wf {m : Mem} (h : m.wf) (a : Nat) (bs : List Byte) : (writeBytes m a bs).wf := by
  induction bs generalizing m a with
  | nil => exact h
  | cons b bs ih => exact ih (Mem.write_wf h a b) (a + 1)

theorem mem_writeBytes {m : Mem} {a : Nat} {bs : List Byte} {c : Host.Cell} (h : c ∈ writeBytes m a bs) :
    (a ≤ c.1 ∧ c.1 < a + bs.length) ∨ c ∈ m := by
  induction bs generalizing m a with
  | nil => exact .inr h
  | cons b bs ih =>
    rcases ih h with h | h
    · left; simp only [List.length_cons]; omega
    · rcases Mem.mem_write h with rfl | h
      · left; simp
      · exact .inr h

theorem read_writeBytes_before (m : Mem) {a b : Nat} (bs : List Byte) (h : b < a) : (writeBytes m a bs).read b = m.read b := by
  induction bs generalizing m a with
  | nil => rfl
  | cons v bs ih => rw [writeBytes, ih _ (by omega), Mem.read_write_other _ _ (by omega)]

theorem read_writeBytes_after (m : Mem) {a b : Nat} (bs : List Byte) (h : a + bs.length ≤ b) :
    (writeBytes m a bs).read b = m.read b := by
  induction bs generalizing m a with
  | nil => rfl
  | cons v bs ih =>
    simp only [List.length_cons] at h
    rw [writeBytes, ih _ (by omega), Mem.read_write_other _ _ (by omega)]

theorem read_writeBytes_inside (m : Mem) (a : Nat) {i : Nat} {bs : List Byte} (h : i < bs.length) :
    (writeBytes m a bs).read (a + i) = bs[i]? := by
  induction bs generalizing m a i with
  | nil => simp at h
  | cons v bs ih =>
    cases i with
    | zero => rw [writeBytes, read_writeBytes_before _ _ (by omega), Nat.add_zero, Mem.read_write_same]; rfl
    | succ i =>
      simp only [List.length_cons] at h
      rw [writeBytes, show a + (i + 1) = a + 1 + i by omega, ih _ _ (by omega)]; rfl

theorem readBytes_ok_iff {m : Mem} {a n : Nat} {bs : List Byte} :
    readBytes m a n = .ok bs ↔ bs.length = n ∧ ∀ i, i < n → m.read (a + i) = bs[i]? := by
  induction n generalizing a bs with
  | zero =>
    simp only [readBytes, Except.ok.injEq, Nat.not_lt_zero, false_implies, implies_true, and_true]
    exact ⟨fun h => by simp [← h], fun h => (List.length_eq_zero_iff.1 h).symm⟩
  | succ n ih =>
    simp only [readBytes]
    constructor
    · intro h
      cases hr : m.read a with
      | none => rw [hr] at h; cases h
      | some b =>
        rw [hr] at h
        cases ht : readBytes m (a + 1) n with
        | error e => simp [ht] at h
        | ok cs =>
          simp only [ht, Except.ok.injEq] at h
          subst h
          obtain ⟨hl, hi⟩ := ih.1 ht
          refine ⟨by simp [hl], fun i hlt => ?_⟩
          cases i with
          | zero => simpa using hr
          | succ i => rw [show a + (i + 1) = a + 1 + i by omega, hi i (by omega)]; rfl
    · rintro ⟨hl, hi⟩
      cases bs with
      | nil => simp at hl
      | cons b cs =>
        have h0 : m.read a = some b := by simpa using hi 0 (by omega)
        have ht : readBytes m (a + 1) n = .ok cs := ih.2 ⟨by simpa using hl, fun i hlt => by
          have := hi (i + 1) (by omega)
          rw [show a + (i + 1) = a + 1 + i by omega] at this
          simpa using this⟩
        simp [h0, ht]

/-- A read that stops names an address of the range that has no value. -/
theorem readBytes_error {m : Mem} {a n e : Nat} (h : readBytes m a n = .error e) :
    a ≤ e ∧ e < a + n ∧ m.read e = none := by
  induction n generalizing a with
  | zero => cases h
  | succ n ih =>
    simp only [readBytes] at h
    cases hr : m.read a with
    | none =>
      simp only [hr, Except.error.injEq] at h
      subst h
      exact ⟨Nat.le_refl _, by omega, hr⟩
    | some b =>
      rw [hr] at h
      cases ht : readBytes m (a + 1) n with
      | error e' =>
        simp only [ht, Except.error.injEq] at h
        subst h
        obtain ⟨h1, h2, h3⟩ := ih ht
        exact ⟨by omega, by omega, h3⟩
      | ok cs => simp [ht] at h

/-- Bytes that all have a value can be read. -/
theorem readBytes_of_written {m : Mem} {a n : Nat} (h : ∀ i, i < n → ∃ b, m.read (a + i) = some b) :
    ∃ bs, readBytes m a n = .ok bs := by
  cases hr : readBytes m a n with
  | ok bs => exact ⟨bs, rfl⟩
  | error e =>
    obtain ⟨h1, h2, h3⟩ := readBytes_error hr
    obtain ⟨b, hb⟩ := h (e - a) (by omega)
    rw [show a + (e - a) = e by omega, h3] at hb
    cases hb

theorem readBytes_congr {m m' : Mem} {a n : Nat} (h : ∀ i, i < n → m.read (a + i) = m'.read (a + i)) :
    readBytes m a n = readBytes m' a n := by
  induction n generalizing a with
  | zero => rfl
  | succ n ih =>
    have h0 := h 0 (by omega)
    simp only [Nat.add_zero] at h0
    simp only [readBytes, h0]
    rw [ih fun i hi => by
      have := h (i + 1) (by omega)
      rwa [show a + (i + 1) = a + 1 + i by omega] at this]

/-- Each byte that was read is the memory's byte at its address. -/
theorem read_of_readBytes {m : Mem} {a n i : Nat} {bs : List Byte} (h : readBytes m a n = .ok bs) (hi : i < n) :
    m.read (a + i) = some (byteAt bs i) := by
  obtain ⟨hl, hb⟩ := readBytes_ok_iff.1 h
  rw [hb i hi, byteAt, List.getD_eq_getElem?_getD, List.getElem?_eq_getElem (by omega)]
  rfl

theorem byteAt_of_readBytes {m : Mem} {a n i : Nat} {bs : List Byte} {B : Nat → Byte} (h : readBytes m a n = .ok bs)
    (hB : ∀ i, i < n → m.read (a + i) = some (B i)) (hi : i < n) : byteAt bs i = B i := by
  have := read_of_readBytes h hi
  rw [hB i hi] at this
  exact (Option.some.inj this).symm

end Sys2Proof.Machine
end

