-- ==== Sys2Proof/Laws/Words.lean ====
section
/-! SUPPORT. The size checks as inequalities, the packing of bytes into words, and the header and raw bytes read back from them. -/

namespace Sys2Proof.Machine

theorem inMin_le_inSize : Config.inMin ≤ Config.inSize := Nat.le_add_right _ _

theorem inSize_le : Config.inSize ≤ 2 ^ 32 := by
  have := Config.inExtra.isLt
  simp only [Config.inSize, Config.inMin]
  omega

theorem withinIn_iff (n : Nat) : withinIn n = true ↔ n ≤ Config.inSize := by
  have := inMin_le_inSize
  simp only [withinIn, Bool.or_eq_true, decide_eq_true_eq]
  omega

theorem withinTmem_iff (n : Nat) : withinTmem n = true ↔ n ≤ Config.tmemSize := by
  have := inMin_le_inSize
  have : 80 * (Config.inMin / 16) ≤ Config.tmemSize := Nat.mul_le_mul_left 80 (Nat.div_le_div_right this)
  simp only [withinTmem, Bool.or_eq_true, decide_eq_true_eq]
  exact ⟨fun h => h.elim (fun h => Nat.le_trans h this) id, .inr⟩

theorem admitted_iff (a n : Nat) : admitted a n = true ↔ a + n ≤ Config.inSize := withinIn_iff _

theorem not_admitted_iff (a n : Nat) : admitted a n = false ↔ Config.inSize < a + n := by
  rw [← Bool.not_eq_true, admitted_iff, Nat.not_le]

theorem regWord_toNat {reg n : Nat} (h : n < 2 ^ 32) : (regWord reg n).toNat = n := by
  rw [regWord, if_pos h, BitVec.toNat_ofNat, Nat.mod_eq_of_lt h]

theorem wordByte_packWord (b0 b1 b2 b3 : Byte) :
    wordByte (packWord b0 b1 b2 b3) 0 = b0 ∧ wordByte (packWord b0 b1 b2 b3) 1 = b1 ∧
      wordByte (packWord b0 b1 b2 b3) 2 = b2 ∧ wordByte (packWord b0 b1 b2 b3) 3 = b3 := by
  refine ⟨?_, ?_, ?_, ?_⟩ <;>
  · apply BitVec.eq_of_getLsbD_eq
    intro i hi
    simp only [wordByte, packWord, BitVec.getLsbD_extractLsb', BitVec.getLsbD_or, BitVec.getLsbD_shiftLeft,
      BitVec.getLsbD_setWidth, hi, decide_true, Bool.true_and]
    simp (disch := omega) [show 8 + i < 32 by omega, show 16 + i < 32 by omega, show 24 + i < 32 by omega, show i < 32 by omega,
      show i < 16 by omega, show i < 24 by omega, hi, show 16 + i - 8 = 8 + i by omega, show 24 + i - 16 = 8 + i by omega,
      show 24 + i - 8 = 16 + i by omega, show ¬ 16 + i < 16 by omega, show 8 + i < 16 by omega, show 8 + i < 24 by omega,
      show 16 + i < 24 by omega]

theorem wordByte_toNat (w : Word) (i : Nat) : (wordByte w i).toNat = w.toNat / 2 ^ (8 * i) % 2 ^ 8 := by
  rw [wordByte, BitVec.extractLsb'_toNat, Nat.shiftRight_eq_div_pow]

/-- The little-endian value of a packed word (R66). -/
theorem packWord_toNat (b0 b1 b2 b3 : Byte) :
    (packWord b0 b1 b2 b3).toNat = b0.toNat + b1.toNat * 2 ^ 8 + b2.toNat * 2 ^ 16 + b3.toNat * 2 ^ 24 := by
  obtain ⟨h0, h1, h2, h3⟩ := wordByte_packWord b0 b1 b2 b3
  have e0 := congrArg BitVec.toNat h0
  have e1 := congrArg BitVec.toNat h1
  have e2 := congrArg BitVec.toNat h2
  have e3 := congrArg BitVec.toNat h3
  rw [wordByte_toNat] at e0 e1 e2 e3
  have := (packWord b0 b1 b2 b3).isLt
  omega

/-- Byte i (0..3) of the j-th packed word is byte 4j+i of the sequence. -/
theorem wordByte_packedWord (bs : List Byte) (j : Nat) {i : Nat} (h : i < 4) :
    wordByte (packedWord bs j) i = byteAt bs (4 * j + i) := by
  obtain ⟨h0, h1, h2, h3⟩ :=
    wordByte_packWord (byteAt bs (4 * j)) (byteAt bs (4 * j + 1)) (byteAt bs (4 * j + 2)) (byteAt bs (4 * j + 3))
  iterate 4 (rcases i with _ | i; · assumption)
  omega

theorem packedWord_toNat (bs : List Byte) (j : Nat) :
    (packedWord bs j).toNat = (byteAt bs (4 * j)).toNat + (byteAt bs (4 * j + 1)).toNat * 2 ^ 8 +
      (byteAt bs (4 * j + 2)).toNat * 2 ^ 16 + (byteAt bs (4 * j + 3)).toNat * 2 ^ 24 := packWord_toNat _ _ _ _

theorem magicOk_iff (H : Nat → Byte) : magicOk H = true ↔ H 0 = 0x4E ∧ H 1 = 0x45 ∧ H 2 = 0x53 ∧ H 3 = 0x1A := by
  simp [magicOk, and_assoc]

theorem hdrWord_romOf (base : Nat) (bs : List Byte) {j : Nat} (h : j < 4) : (romOf base bs).hdrWord j = packedWord bs j := by
  iterate 4 (rcases j with _ | j; · rfl)
  omega

/-- The stored header is the 16 bytes PARSE read (R30). -/
theorem header_romOf (base : Nat) (bs : List Byte) {i : Nat} (h : i < 16) : (romOf base bs).header i = byteAt bs i := by
  rw [RomGroup.header, hdrWord_romOf _ _ (by omega), wordByte_packedWord _ _ (by omega)]
  congr 1
  omega

/-- A header agreeing on bytes 0..7 has the same derived values. -/
theorem derived_congr {H K : Nat → Byte} (h : ∀ i, i < 8 → H i = K i) :
    magicOk H = magicOk K ∧ trainerSizeBytes H = trainerSizeBytes K ∧ prgSizeBytes H = prgSizeBytes K ∧
      chrSizeBytes H = chrSizeBytes K ∧ totalSize H = totalSize K ∧ mapperNumber H = mapperNumber K ∧
      mirroringOf H = mirroringOf K ∧ hdrFlags H = hdrFlags K := by
  simp [magicOk, trainerSizeBytes, hasTrainer, prgSizeBytes, chrSizeBytes, totalSize, mapperNumber, mirroringOf, hdrFlags,
    hasBattery, isNes2, h 0, h 1, h 2, h 3, h 4, h 5, h 6, h 7]

theorem rawWord_trOf (index : Word) (bs : List Byte) (v : Nat → Nat → Nat) {j : Nat} (h : j < 4) :
    (trOf index bs v).rawWord j = packedWord bs j := by
  iterate 4 (rcases j with _ | j; · rfl)
  omega

/-- The stored raw bytes are the 16 bytes of the tile (R35). -/
theorem raw_trOf (index : Word) (bs : List Byte) (v : Nat → Nat → Nat) {i : Nat} (h : i < 16) :
    (trOf index bs v).raw i = byteAt bs i := by
  rw [TrGroup.raw, rawWord_trOf _ _ _ (by omega), wordByte_packedWord _ _ (by omega)]
  congr 1
  omega

theorem row_trOf (index : Word) (bs : List Byte) (v : Nat → Nat → Nat) {y : Nat} (h : y < 8) :
    (trOf index bs v).row y = packRow (v y) := by
  iterate 8 (rcases y with _ | y; · rfl)
  omega

/-- A bound on every column of a row, one column at a time (the eight columns of R140). -/
theorem eachColumn {P : Nat → Prop} (h : ∀ x, x < 8 → P x) : P 0 ∧ P 1 ∧ P 2 ∧ P 3 ∧ P 4 ∧ P 5 ∧ P 6 ∧ P 7 := by
  simp [h]

theorem packRow_toNat {v : Nat → Nat} (h : ∀ x, x < 8 → v x < 4) :
    (packRow v).toNat =
      v 0 + v 1 * 4 + v 2 * 16 + v 3 * 64 + v 4 * 256 + v 5 * 1024 + v 6 * 4096 + v 7 * 16384 := by
  have columns := eachColumn h
  have e : (List.range 8).map (fun x => v x <<< (2 * x)) =
      [v 0, v 1 * 4, v 2 * 16, v 3 * 64, v 4 * 256, v 5 * 1024, v 6 * 4096, v 7 * 16384] := by
    simp [List.range_succ, Nat.shiftLeft_eq]
  rw [packRow, BitVec.toNat_ofNat, e]
  simp only [List.sum_cons, List.sum_nil]
  omega

theorem packRow_lt {v : Nat → Nat} (h : ∀ x, x < 8 → v x < 4) : (packRow v).toNat < 2 ^ 16 := by
  have columns := eachColumn h
  rw [packRow_toNat h]
  omega

/-- Column x of a packed row is its value (R35). -/
theorem extract_packRow {v : Nat → Nat} (h : ∀ x, x < 8 → v x < 4) {x : Nat} (hx : x < 8) :
    (packRow v).extractLsb' (2 * x) 2 = BitVec.ofNat 2 (v x) := by
  have columns := eachColumn h
  apply BitVec.eq_of_toNat_eq
  rw [BitVec.extractLsb'_toNat, packRow_toNat h, BitVec.toNat_ofNat, Nat.shiftRight_eq_div_pow]
  iterate 8 (rcases x with _ | x; · first | omega | (simp only [Nat.zero_add, Nat.reduceAdd]; omega))
  omega

/-- Pixel (y,x) of a TR group written from a grid (R35, R142, R144). -/
theorem pixel_trOf (index : Word) (bs : List Byte) {v : Nat → Nat → Nat} {y x : Nat} (hv : ∀ x, x < 8 → v y x < 4) (hy : y < 8)
    (hx : x < 8) : (trOf index bs v).pixel y x = BitVec.ofNat 2 (v y x) := by
  rw [TrGroup.pixel, row_trOf _ _ _ hy, extract_packRow hv hx]

/-- decode16 looks at bytes y and y+8 only (R141). -/
theorem decodePixel_congr {B C : Nat → Byte} {y : Nat} (x : Nat) (h : B y = C y) (h' : B (y + 8) = C (y + 8)) :
    decodePixel B y x = decodePixel C y x := by
  rw [decodePixel, decodePixel, h, h']

end Sys2Proof.Machine
end

