-- ==== Sys2Proof/Laws/Tile.lean ====
section
/-! SUPPORT. What a tile record and the loop of EXTRACT_TILES put into TMEM, and what LOAD_TILE finds there. -/

namespace Sys2Proof.Machine

theorem tileRecord_length {bs : List Byte} (h : bs.length = 16) : (tileRecord bs).length = 80 := by
  simp [tileRecord, h]

theorem tileRecord_raw {bs : List Byte} (h : bs.length = 16) {i : Nat} (hi : i < 16) :
    (tileRecord bs)[i]? = some (byteAt bs i) := by
  rw [tileRecord, List.getElem?_append_left (by omega), byteAt, List.getD_eq_getElem?_getD,
    List.getElem?_eq_getElem (by omega)]
  rfl

theorem tileRecord_pixel {bs : List Byte} (h : bs.length = 16) {y x : Nat} (hy : y < 8) (hx : x < 8) :
    (tileRecord bs)[16 + 8 * y + x]? = some ((decodePixel (byteAt bs) y x).setWidth 8) := by
  rw [tileRecord, List.getElem?_append_right (by omega), h, List.getElem?_map,
    List.getElem?_range (by omega : 16 + 8 * y + x - 16 < 64)]
  simp only [Option.map_some]
  rw [show (16 + 8 * y + x - 16) / 8 = y by omega, show (16 + 8 * y + x - 16) % 8 = x by omega]

/-- Writing a tile's record makes TMEM hold the tile (R64). -/
theorem holdsTile_write (m : Mem) (k : Nat) {bs : List Byte} (h : bs.length = 16) :
    HoldsTile (writeBytes m (80 * k) (tileRecord bs)) k (byteAt bs) := by
  have hl := tileRecord_length h
  refine ⟨fun i hi => ?_, fun y x hy hx => ?_⟩
  · rw [read_writeBytes_inside _ _ (by omega), tileRecord_raw h hi]
  · rw [show 80 * k + 16 + 8 * y + x = 80 * k + (16 + 8 * y + x) by omega, read_writeBytes_inside _ _ (by omega),
      tileRecord_pixel h hy hx]

/-- A tile depends on the 80 bytes of its record only. -/
theorem HoldsTile.congr {m m' : Mem} {k : Nat} {B : Nat → Byte} (h : HoldsTile m k B)
    (e : ∀ a, 80 * k ≤ a → a < 80 * k + 80 → m'.read a = m.read a) : HoldsTile m' k B :=
  ⟨fun i hi => by rw [e _ (by omega) (by omega), h.1 i hi],
    fun y x hy hx => by rw [e _ (by omega) (by omega), h.2 y x hy hx]⟩

/-- Tile k of two blocks that agree on their 16 bytes is the same tile. -/
theorem HoldsTile.block {m : Mem} {k : Nat} {B C : Nat → Byte} (h : HoldsTile m k B) (e : ∀ i, i < 16 → C i = B i) :
    HoldsTile m k C :=
  ⟨fun i hi => by rw [h.1 i hi, e i hi],
    fun y x hy hx => by rw [h.2 y x hy hx, decodePixel_congr x (e y (by omega)) (e (y + 8) (by omega))]⟩

/-- The whole effect of the loop of EXTRACT_TILES when it ends (R143): a record for each block read, nothing else written. -/
theorem extractRecords_ok {inMem tmem m : Mem} {addr n : Nat} (h : extractRecords inMem addr tmem n = .ok m) :
    (∀ k, k < n → ∃ bs, readBytes inMem (addr + 16 * k) 16 = .ok bs ∧ HoldsTile m k (byteAt bs)) ∧
      (∀ a, 80 * n ≤ a → m.read a = tmem.read a) ∧ (tmem.wf → m.wf) ∧ ∀ c ∈ m, c.1 < 80 * n ∨ c ∈ tmem := by
  induction n generalizing m with
  | zero =>
    simp only [extractRecords, Except.ok.injEq] at h
    subst h
    exact ⟨fun k hk => absurd hk (by omega), fun _ _ => rfl, id, fun c hc => .inr hc⟩
  | succ n ih =>
    simp only [extractRecords] at h
    cases hm : extractRecords inMem addr tmem n with
    | error e => simp [hm] at h
    | ok m0 =>
      rw [hm] at h
      cases hb : readBytes inMem (addr + 16 * n) 16 with
      | error e => simp [hb] at h
      | ok bs =>
        simp only [hb, Except.ok.injEq] at h
        subst h
        obtain ⟨i1, i2, i3, i4⟩ := ih hm
        have hl : bs.length = 16 := (readBytes_ok_iff.1 hb).1
        have hr := tileRecord_length hl
        refine ⟨fun k hk => ?_, fun a ha => ?_, fun hw => writeBytes_wf (i3 hw) _ _, fun c hc => ?_⟩
        · by_cases hkn : k = n
          · subst hkn
            exact ⟨bs, hb, holdsTile_write _ _ hl⟩
          · obtain ⟨cs, h1, h2⟩ := i1 k (by omega)
            exact ⟨cs, h1, h2.congr fun a _ _ => read_writeBytes_before _ _ (by omega)⟩
        · rw [read_writeBytes_after _ _ (by omega), i2 a (by omega)]
        · rcases mem_writeBytes hc with h | h
          · exact .inl (by omega)
          · exact (i4 c h).imp_left (by omega)

/-- The loop ends when every byte it reads has been written since reset. -/
theorem extractRecords_of_written {inMem tmem : Mem} {addr n : Nat} (h : Written inMem addr (16 * n)) :
    ∃ m, extractRecords inMem addr tmem n = .ok m := by
  induction n with
  | zero => exact ⟨tmem, rfl⟩
  | succ n ih =>
    obtain ⟨m, hm⟩ := ih fun i hi => h i (by omega)
    obtain ⟨bs, hb⟩ := readBytes_of_written (m := inMem) (a := addr + 16 * n) (n := 16) fun i hi => by
      have := h (16 * n + i) (by omega)
      rwa [← Nat.add_assoc] at this
    exact ⟨writeBytes m (80 * n) (tileRecord bs), by simp only [extractRecords, hm, hb]⟩

/-- When the loop stops, it names an unwritten byte of the buffer it reads. -/
theorem extractRecords_error {inMem tmem : Mem} {addr n e : Nat} (h : extractRecords inMem addr tmem n = .error e) :
    addr ≤ e ∧ e < addr + 16 * n ∧ inMem.read e = none := by
  induction n with
  | zero => simp [extractRecords] at h
  | succ n ih =>
    simp only [extractRecords] at h
    cases hm : extractRecords inMem addr tmem n with
    | error e' =>
      simp only [hm, Except.error.injEq] at h
      subst h
      obtain ⟨h1, h2, h3⟩ := ih hm
      exact ⟨h1, by omega, h3⟩
    | ok m =>
      rw [hm] at h
      cases hb : readBytes inMem (addr + 16 * n) 16 with
      | error e' =>
        simp only [hb, Except.error.injEq] at h
        subst h
        obtain ⟨h1, h2, h3⟩ := readBytes_error hb
        exact ⟨by omega, by omega, h3⟩
      | ok bs => simp [hb] at h

theorem extractRecords_congr {m m' tmem : Mem} {addr n : Nat} (h : ∀ i, i < 16 * n → m.read (addr + i) = m'.read (addr + i)) :
    extractRecords m addr tmem n = extractRecords m' addr tmem n := by
  induction n with
  | zero => rfl
  | succ n ih =>
    have hb : readBytes m (addr + 16 * n) 16 = readBytes m' (addr + 16 * n) 16 := readBytes_congr fun i hi => by
      have := h (16 * n + i) (by omega)
      rwa [← Nat.add_assoc] at this
    simp only [extractRecords, ih fun i hi => h i (by omega), hb]

/-- The record of a held tile can be read, and holds its raw bytes and its pixels. -/
theorem readBytes_of_holdsTile {m : Mem} {k : Nat} {B : Nat → Byte} (h : HoldsTile m k B) :
    ∃ bs, readBytes m (80 * k) 80 = .ok bs ∧ (∀ i, i < 16 → byteAt bs i = B i) ∧
      ∀ y x, y < 8 → x < 8 → byteAt bs (16 + 8 * y + x) = (decodePixel B y x).setWidth 8 := by
  obtain ⟨bs, hb⟩ := readBytes_of_written (m := m) (a := 80 * k) (n := 80) fun i hi => by
    by_cases h16 : i < 16
    · exact ⟨_, h.1 i h16⟩
    · have := h.2 ((i - 16) / 8) ((i - 16) % 8) (by omega) (by omega)
      rw [show 80 * k + 16 + 8 * ((i - 16) / 8) + (i - 16) % 8 = 80 * k + i by omega] at this
      exact ⟨_, this⟩
  refine ⟨bs, hb, fun i hi => ?_, fun y x hy hx => ?_⟩
  · have := read_of_readBytes hb (show i < 80 by omega)
    rw [h.1 i hi] at this
    exact (Option.some.inj this).symm
  · have := read_of_readBytes hb (show 16 + 8 * y + x < 80 by omega)
    rw [show 80 * k + (16 + 8 * y + x) = 80 * k + 16 + 8 * y + x by omega, h.2 y x hy hx] at this
    exact (Option.some.inj this).symm

end Sys2Proof.Machine
end

