-- ==== Sys2Proof/Laws/Exec.lean ====
section
/-! SUPPORT. What each command and each host access can do, said once: the cases of a next state. -/

namespace Sys2Proof.Machine

/-- An error record a command of NXB may raise (R24, R200, R201, R207). -/
structure ErrRecord.Ok (e : ErrRecord) : Prop where
  notOk : e.code ≠ .ok
  notNotFound : e.code ≠ .notFound
  noDetail : e.code ≠ .incompleteData → e.seg = .none ∧ e.expected = 0 ∧ e.actual = 0
  detail : e.code = .incompleteData → e.seg ≠ .none ∧ e.actual.toNat < e.expected.toNat

theorem formatError_ok : formatError.Ok := ⟨by decide, by decide, by decide, by decide⟩

theorem argumentError_ok : argumentError.Ok := ⟨by decide, by decide, by decide, by decide⟩

theorem illegalCommand_ok : illegalCommand.Ok := ⟨by decide, by decide, by decide, by decide⟩

theorem incompleteData_ok {seg : Segment} {e a : Nat} (hs : seg ≠ .none) (he : e < 2 ^ 32) (ha : a < e) :
    (incompleteData seg e a).Ok :=
  ⟨by simp [incompleteData], by simp [incompleteData], by simp [incompleteData], fun _ =>
    ⟨hs, by
      simp only [incompleteData, BitVec.toNat_ofNat]
      rw [Nat.mod_eq_of_lt he, Nat.mod_eq_of_lt (by omega)]
      exact ha⟩⟩

theorem shortHeaderError_ok {avail : Nat} (h : avail < 16) : (shortHeaderError avail).Ok := by
  unfold shortHeaderError
  split
  · exact formatError_ok
  · exact incompleteData_ok (by decide) (by decide) h

theorem sizes_lt (H : Nat → Byte) :
    trainerSizeBytes H ≤ 512 ∧ prgSizeBytes H ≤ 4177920 ∧ chrSizeBytes H ≤ 2088960 := by
  have h4 := (H 4).isLt
  have h5 := (H 5).isLt
  refine ⟨?_, ?_, ?_⟩
  · unfold trainerSizeBytes; split <;> omega
  · unfold prgSizeBytes; omega
  · unfold chrSizeBytes; omega

theorem containerError_ok {H : Nat → Byte} {avail : Nat} {e : ErrRecord} (h : containerError H avail = some e) : e.Ok := by
  obtain ⟨h1, h2, h3⟩ := sizes_lt H
  simp only [containerError] at h
  split at h
  · cases h; exact formatError_ok
  · split at h
    · cases h; exact incompleteData_ok (by decide) (by omega) (by omega)
    · split at h
      · cases h; exact incompleteData_ok (by decide) (by omega) (by omega)
      · split at h
        · cases h; exact incompleteData_ok (by decide) (by omega) (by omega)
        · cases h

/-- PARSE's header checks pass exactly when the magic is good and the source holds the whole container (R100). -/
theorem containerError_none {H : Nat → Byte} {avail : Nat} (ha : 16 ≤ avail) :
    containerError H avail = none ↔ magicOk H = true ∧ totalSize H ≤ avail := by
  simp only [containerError, totalSize]
  by_cases hm : magicOk H = true
  · simp only [hm, Bool.not_true, Bool.false_eq_true, if_false, true_and]
    constructor
    · intro h
      split at h
      · cases h
      · split at h
        · cases h
        · split at h
          · cases h
          · omega
    · intro h
      rw [if_neg (by omega), if_neg (by omega), if_neg (by omega)]
  · simp [hm]

/-- PARSE of a region that is not admitted. -/
theorem execParse_outside {s : State} (h : Config.inSize < opBase s + opAvail s) :
    execParse s = .next (s.raise argumentError (some .rom)) := by
  simp [execParse, (not_admitted_iff _ _).2 h]

/-- PARSE of an admitted region shorter than a header. -/
theorem execParse_short {s : State} (h : opBase s + opAvail s ≤ Config.inSize) (hl : opAvail s < 16) :
    execParse s = .next (s.raise (shortHeaderError (opAvail s)) (some .rom)) := by
  simp [execParse, (admitted_iff _ _).2 h, hl]

/-- PARSE of an admitted region whose header can be read: the header's checks decide. -/
theorem execParse_header {s : State} {bs : List Byte} (h : opBase s + opAvail s ≤ Config.inSize) (hl : 16 ≤ opAvail s)
    (hb : readBytes s.inMem (opBase s) 16 = .ok bs) :
    (∀ e, containerError (byteAt bs) (opAvail s) = some e → execParse s = .next (s.raise e (some .rom))) ∧
      (containerError (byteAt bs) (opAvail s) = none → execParse s = .next (s.withRom (romOf (opBase s) bs)).finish) := by
  refine ⟨fun e he => ?_, fun hn => ?_⟩
  · simp [execParse, (admitted_iff _ _).2 h, Nat.not_lt.2 hl, hb, he]
  · simp [execParse, (admitted_iff _ _).2 h, Nat.not_lt.2 hl, hb, hn]

/-- PARSE of an admitted region with an unwritten header byte. -/
theorem execParse_unwritten {s : State} {a : Nat} (h : opBase s + opAvail s ≤ Config.inSize) (hl : 16 ≤ opAvail s)
    (hb : readBytes s.inMem (opBase s) 16 = .error a) : execParse s = .fault (.unwrittenIn a) := by
  simp [execParse, (admitted_iff _ _).2 h, Nat.not_lt.2 hl, hb]

/-- The condition under which PROBE reads the four bytes (R111). -/
theorem probe_condition (s : State) :
    (admitted (opBase s) (opAvail s) && opExtOk s && decide (Config.probeMinLen ≤ opAvail s)) = true ↔
      opBase s + opAvail s ≤ Config.inSize ∧ opExtOk s = true ∧ Config.probeMinLen ≤ opAvail s := by
  simp only [Bool.and_eq_true, admitted_iff, decide_eq_true_eq, and_assoc]

/-- PROBE that does not read answers 0. -/
theorem execProbe_no {s : State}
    (h : ¬(opBase s + opAvail s ≤ Config.inSize ∧ opExtOk s = true ∧ Config.probeMinLen ≤ opAvail s)) :
    execProbe s = .next (s.withProbe false).finish := by
  rw [execProbe, if_neg (mt (probe_condition s).1 h)]

/-- PROBE that reads answers by the magic, or stops on an unwritten byte. -/
theorem execProbe_read {s : State} (h : opBase s + opAvail s ≤ Config.inSize) (hx : opExtOk s = true)
    (hl : Config.probeMinLen ≤ opAvail s) :
    (∀ bs, readBytes s.inMem (opBase s) 4 = .ok bs → execProbe s = .next (s.withProbe (magicOk (byteAt bs))).finish) ∧
      ∀ a, readBytes s.inMem (opBase s) 4 = .error a → execProbe s = .fault (.unwrittenIn a) := by
  refine ⟨fun bs hb => ?_, fun a hb => ?_⟩ <;> rw [execProbe, if_pos ((probe_condition s).2 ⟨h, hx, hl⟩), hb]

/-- DECODE_TILE of a region that is not admitted or holds less than a block. -/
theorem execDecodeTile_bad {s : State} (h : Config.inSize < opBase s + opAvail s ∨ opAvail s < 16) :
    execDecodeTile s = .next (s.raise argumentError (some .tr)) := by
  by_cases ha : opBase s + opAvail s ≤ Config.inSize
  · simp [execDecodeTile, (admitted_iff _ _).2 ha, h.resolve_left (by omega)]
  · simp [execDecodeTile, (not_admitted_iff _ _).2 (Nat.not_le.1 ha)]

/-- DECODE_TILE of an admitted block. -/
theorem execDecodeTile_read {s : State} (h : opBase s + opAvail s ≤ Config.inSize) (hl : 16 ≤ opAvail s) :
    (∀ bs, readBytes s.inMem (opBase s) 16 = .ok bs → execDecodeTile s =
      .next (s.withTr (trOf (opIndex s) bs (fun y x => (decodePixel (byteAt bs) y x).toNat))).finish) ∧
      ∀ a, readBytes s.inMem (opBase s) 16 = .error a → execDecodeTile s = .fault (.unwrittenIn a) := by
  refine ⟨fun bs hb => ?_, fun a hb => ?_⟩ <;> simp [execDecodeTile, (admitted_iff _ _).2 h, Nat.not_lt.2 hl, hb]

/-- EXTRACT_TILES of a region that is not admitted. -/
theorem execExtractTiles_outside {s : State} (h : Config.inSize < opBase s + opAvail s) :
    execExtractTiles s = .next (s.raise argumentError (some .tiles)) := by
  simp [execExtractTiles, (not_admitted_iff _ _).2 h]

/-- EXTRACT_TILES of an admitted buffer. -/
theorem execExtractTiles_read {s : State} (h : opBase s + opAvail s ≤ Config.inSize) :
    (∀ m, extractRecords s.inMem (opBase s) s.tmem (opAvail s / 16) = .ok m → execExtractTiles s =
      .next (s.withTiles (BitVec.ofNat 32 (opAvail s / 16)) m).finish) ∧
      ∀ a, extractRecords s.inMem (opBase s) s.tmem (opAvail s / 16) = .error a → execExtractTiles s = .fault (.unwrittenIn a) := by
  refine ⟨fun bs hb => ?_, fun a hb => ?_⟩ <;> simp [execExtractTiles, (admitted_iff _ _).2 h, hb]

/-- LOAD_TILE with no valid list, or past its end. -/
theorem execLoadTile_bad {s : State} (h : s.tilesValid = false ∨ s.tileCount.toNat ≤ opTile s) :
    execLoadTile s = .next (s.raise argumentError (some .tr)) := by
  by_cases hv : s.tilesValid = true
  · simp [execLoadTile, hv, h.resolve_left (by simp [hv])]
  · simp [execLoadTile, hv]

/-- LOAD_TILE of a tile of the list. -/
theorem execLoadTile_read {s : State} (h : s.tilesValid = true) (hk : opTile s < s.tileCount.toNat) :
    (∀ bs, readBytes s.tmem (80 * opTile s) 80 = .ok bs → execLoadTile s =
      .next (s.withTr (trOf s.arg0 bs (fun y x => (byteAt bs (16 + 8 * y + x)).toNat))).finish) ∧
      ∀ a, readBytes s.tmem (80 * opTile s) 80 = .error a → execLoadTile s = .fault (.unwrittenTmem a) := by
  refine ⟨fun bs hb => ?_, fun a hb => ?_⟩ <;> simp [execLoadTile, h, Nat.not_le.2 hk, hb]

/-- PARSE's next states: an error that clears ROM_VALID, or the whole ROM group (R100). -/
theorem execParse_cases {s t : State} (h : execParse s = .next t) :
    (∃ e : ErrRecord, e.Ok ∧ t = s.raise e (some .rom)) ∨
      ∃ bs, opBase s + opAvail s ≤ Config.inSize ∧ 16 ≤ opAvail s ∧ readBytes s.inMem (opBase s) 16 = .ok bs ∧
        magicOk (byteAt bs) = true ∧ totalSize (byteAt bs) ≤ opAvail s ∧ t = (s.withRom (romOf (opBase s) bs)).finish := by
  simp only [execParse] at h
  split at h
  · cases h; exact .inl ⟨_, argumentError_ok, rfl⟩
  · rename_i hadm
    split at h
    · rename_i hlt
      cases h; exact .inl ⟨_, shortHeaderError_ok hlt, rfl⟩
    · rename_i hge
      split at h
      · cases h
      · rename_i bs hb
        split at h
        · rename_i e he
          cases h; exact .inl ⟨e, containerError_ok he, rfl⟩
        · rename_i hn
          cases h
          rw [containerError_none (by omega)] at hn
          refine .inr ⟨bs, ?_, by omega, hb, hn.1, hn.2, rfl⟩
          rw [← admitted_iff]
          simpa using hadm

/-- PROBE's next states: PROBE_RESULT written, no error (R111). -/
theorem execProbe_cases {s t : State} (h : execProbe s = .next t) : ∃ r, t = (s.withProbe r).finish := by
  simp only [execProbe] at h
  split at h
  · split at h
    · cases h
    · cases h; exact ⟨_, rfl⟩
  · cases h; exact ⟨_, rfl⟩

/-- DECODE_TILE's next states: ARGUMENT_ERROR that clears TR_VALID, or the whole TR group (R142). -/
theorem execDecodeTile_cases {s t : State} (h : execDecodeTile s = .next t) :
    t = s.raise argumentError (some .tr) ∨
      ∃ bs, opBase s + opAvail s ≤ Config.inSize ∧ 16 ≤ opAvail s ∧ readBytes s.inMem (opBase s) 16 = .ok bs ∧
        t = (s.withTr (trOf (opIndex s) bs (fun y x => (decodePixel (byteAt bs) y x).toNat))).finish := by
  simp only [execDecodeTile] at h
  split at h
  · cases h; exact .inl rfl
  · rename_i hadm
    split at h
    · cases h; exact .inl rfl
    · split at h
      · cases h
      · rename_i bs hb
        cases h
        refine .inr ⟨bs, ?_, by omega, hb, rfl⟩
        rw [← admitted_iff]
        simpa using hadm

/-- EXTRACT_TILES's next states: ARGUMENT_ERROR that clears TILES_VALID, or TILE_COUNT and the records (R143). -/
theorem execExtractTiles_cases {s t : State} (h : execExtractTiles s = .next t) :
    t = s.raise argumentError (some .tiles) ∨
      ∃ m, opBase s + opAvail s ≤ Config.inSize ∧ extractRecords s.inMem (opBase s) s.tmem (opAvail s / 16) = .ok m ∧
        t = (s.withTiles (BitVec.ofNat 32 (opAvail s / 16)) m).finish := by
  simp only [execExtractTiles] at h
  split at h
  · cases h; exact .inl rfl
  · rename_i hadm
    split at h
    · cases h
    · rename_i m hm
      cases h
      refine .inr ⟨m, ?_, hm, rfl⟩
      rw [← admitted_iff]
      simpa using hadm

/-- LOAD_TILE's next states: ARGUMENT_ERROR that clears TR_VALID, or the whole TR group (R144). -/
theorem execLoadTile_cases {s t : State} (h : execLoadTile s = .next t) :
    t = s.raise argumentError (some .tr) ∨
      ∃ bs, s.tilesValid = true ∧ opTile s < s.tileCount.toNat ∧ readBytes s.tmem (80 * opTile s) 80 = .ok bs ∧
        t = (s.withTr (trOf s.arg0 bs (fun y x => (byteAt bs (16 + 8 * y + x)).toNat))).finish := by
  simp only [execLoadTile] at h
  split at h
  · cases h; exact .inl rfl
  · rename_i hv
    split at h
    · cases h; exact .inl rfl
    · rename_i hk
      split at h
      · cases h
      · rename_i bs hb
        cases h
        exact .inr ⟨bs, by simpa using hv, by omega, hb, rfl⟩

/-- RESOLVE's next state (R171). -/
theorem execResolve_eq (s : State) :
    execResolve s = .next (s.withPal (resolvePalette (opPaletteIndex s) (opTransparent s))).finish := rfl

/-- The tile count a successful EXTRACT_TILES writes fits its register (R147). -/
theorem tileCount_toNat (s : State) : (BitVec.ofNat 32 (opAvail s / 16)).toNat = opAvail s / 16 := by
  have := s.arg1.isLt
  rw [BitVec.toNat_ofNat, Nat.mod_eq_of_lt]
  simp only [opAvail]
  omega

/-- A CMD write ends in a command's outcome or in ILLEGAL_COMMAND (R84). -/
theorem issueCommand_cases (w : Word) (s : State) :
    (∃ i, decode w = some i ∧ issueCommand w s = exec i s) ∨
      (decode w = none ∧ issueCommand w s = .next (s.raise illegalCommand none)) := by
  unfold issueCommand
  cases h : decode w with
  | some i => exact .inl ⟨i, rfl, rfl⟩
  | none => exact .inr ⟨rfl, rfl⟩

/-- The next states of a host access: a command's, ILLEGAL_COMMAND's, an ARG write, an IN write, a read, a reset or no change. -/
theorem hostAct_cases {a : HostAction} {s t : State} (h : hostAct a s = .next t) :
    (∃ i, exec i s = .next t) ∨ t = s.raise illegalCommand none ∨ (∃ v, t = s.withArg0 v) ∨ (∃ v, t = s.withArg1 v) ∨
      (∃ v, t = s.withArg2 v) ∨ (∃ x v, x < Config.inSize ∧ t = s.withIn (s.inMem.write x v)) ∨ (∃ v, t = s.withRead v) ∨
      t = s.afterReset ∨ t = s := by
  have read_next : ∀ {r : Except Fault ReadValue}, readOutcome r s = .next t → ∃ v, t = s.withRead v := by
    intro r hr
    cases r with
    | error f => cases hr
    | ok v => cases hr; exact ⟨v, rfl⟩
  cases a with
  | wr o v =>
    simp only [hostAct, hostWrite] at h
    cases hr : regAt o with
    | none => rw [hr] at h; cases h; simp
    | some r =>
      rw [hr] at h
      cases r <;> simp only [writeReg, Host.Outcome.next.injEq] at h <;> try (subst h; simp)
      case cmd =>
        rcases issueCommand_cases v s with ⟨i, _, hi⟩ | ⟨_, hi⟩
        · exact .inl ⟨i, hi ▸ h⟩
        · rw [hi] at h; cases h; exact .inr (.inl rfl)
      all_goals
        first
        | exact .inr (.inr (.inl ⟨v, rfl⟩))
        | exact .inr (.inr (.inr (.inl ⟨v, rfl⟩)))
        | exact .inr (.inr (.inr (.inr (.inl ⟨v, rfl⟩))))
  | rd o => exact .inr (.inr (.inr (.inr (.inr (.inr (.inl (read_next h)))))))
  | wrbIn x v =>
    simp only [hostAct, Host.Outcome.next.injEq, hostWriteIn] at h
    split at h
    · rename_i hx
      rw [withinIn_iff] at hx
      exact .inr (.inr (.inr (.inr (.inr (.inl ⟨x.toNat, v, by omega, h.symm⟩)))))
    · simp [h]
  | rdbIn x => exact .inr (.inr (.inr (.inr (.inr (.inr (.inl (read_next h)))))))
  | wrbTmem x v => simp only [hostAct, Host.Outcome.next.injEq] at h; simp [h]
  | rdbTmem x => exact .inr (.inr (.inr (.inr (.inr (.inr (.inl (read_next h)))))))
  | reset => simp only [hostAct, Host.Outcome.next.injEq] at h; simp [h]

theorem step_cons {s : State} {a : HostAction} {rest : List HostAction} (h : s.pending = a :: rest) :
    step s = hostAct a (s.withPending rest) := by
  simp only [step, hostStep, h]

/-- A register's word number is in the map and names that register. -/
theorem regAt_word (r : Reg) : regAt r.word = some r := by
  cases r <;> first | rfl | (rename_i j; revert j; decide)

end Sys2Proof.Machine
end

