-- ==== Sys2Proof/Laws/Palette.lean ====
section
/-! SUPPORT. The two lookups of R178: from a pixel of TR, and from a pixel byte of TMEM. -/

namespace Sys2Proof.Machine

/-- On a pixel byte the TMEM lookup and the TR lookup of R178 agree. -/
theorem colourOfByte_pixel (p : PalGroup) (v : Pixel) : p.colourOfByte (v.setWidth 8) = some (p.colour v) := by
  have h := v.isLt
  have e : (v.setWidth 8).toNat = v.toNat := by rw [BitVec.toNat_setWidth, Nat.mod_eq_of_lt (by omega)]
  rw [PalGroup.colourOfByte, e, if_pos h, PalGroup.colour]

/-- There is no colour for a byte that is no pixel. -/
theorem colourOfByte_none {p : PalGroup} {b : Byte} (h : 4 ≤ b.toNat) : p.colourOfByte b = none := if_neg (by omega)

end Sys2Proof.Machine
end

