-- ==== Sys2Proof/Laws/PerInstr.lean ====
section
/-! SUPPORT. A statement about every command as syntax: it is well formed, its word is well formed, and no other command has its OP. -/

namespace Sys2Proof.Laws

/-- The command's word has its reserved field 0 and a legal OP, and the OP is the command's alone (R80, R81, R83). -/
def CommandWord.Statement (i : Instr) : Prop :=
  i.wf = true ∧ cmdWf (encode i) = true ∧ ∀ j, opField (encode j) = opField (encode i) → j = i

theorem CommandWord.parse : CommandWord.Statement .parse := ⟨rfl, by decide, fun j => by cases j <;> decide⟩
theorem CommandWord.probe : CommandWord.Statement .probe := ⟨rfl, by decide, fun j => by cases j <;> decide⟩
theorem CommandWord.decodeTile : CommandWord.Statement .decodeTile := ⟨rfl, by decide, fun j => by cases j <;> decide⟩
theorem CommandWord.extractTiles : CommandWord.Statement .extractTiles := ⟨rfl, by decide, fun j => by cases j <;> decide⟩
theorem CommandWord.loadTile : CommandWord.Statement .loadTile := ⟨rfl, by decide, fun j => by cases j <;> decide⟩
theorem CommandWord.resolve : CommandWord.Statement .resolve := ⟨rfl, by decide, fun j => by cases j <;> decide⟩

end Sys2Proof.Laws
end

