-- ==== Sys2Proof/Tests/Slice0.lean ====
section
/-! SUPPORT. Small tests, then a witness for the hypotheses of each statement. Expected values are those of 95_test_vectors.md (the
vector's id stands beside each test) or of a rule, never the model's own answers. -/

namespace Sys2Proof.Tests
open Sys2Proof.Machine

/-! ## Helpers -/

/-- A part of the next state, where there is one. -/
def partOf {α : Type} (f : State → α) (o : Host.Outcome State Fault Refusal) : Option α :=
  match o with
  | .next t => some (f t)
  | _ => none

/-- The fault, where there is one. -/
def faultOf (o : Host.Outcome State Fault Refusal) : Option Fault :=
  match o with
  | .fault f => some f
  | _ => none

/-- Reset, with operands and with a byte sequence written to IN from address `a` up. -/
def prep (a0 a1 a2 : Word) (a : Nat) (bs : List Byte) : State :=
  { State.reset with arg0 := a0, arg1 := a1, arg2 := a2, inMem := writeBytes [] a bs }

/-- A header with a good magic, the two sizes and the two flags bytes. -/
def hdr (prg chr f6 f7 : Byte) : List Byte := [0x4E, 0x45, 0x53, 0x1A, prg, chr, f6, f7, 0, 0, 0, 0, 0, 0, 0, 0]

def vT1 : List Byte := List.replicate 16 0
def vT3 : List Byte := [0xAA, 0, 0, 0, 0, 0, 0, 0, 0x55, 0, 0, 0, 0, 0, 0, 0]
def vT7 : List Byte := [0x41, 0xC2, 0x44, 0x48, 0x10, 0x20, 0x40, 0x80, 0x01, 0x02, 0x04, 0x08, 0x16, 0x21, 0x42, 0x87]

/-- TMEM with the record of V-T7 as tile 0, written out from R64 and the pixels of its rows: 0xC004, 0x3005, 0x0C04, 0x0304,
0x28C0, 0x8030, 0x200C, 0xA803. -/
def recT7 : List Byte := vT7 ++ [0, 1, 0, 0, 0, 0, 0, 3, 1, 1, 0, 0, 0, 0, 3, 0, 0, 1, 0, 0, 0, 3, 0, 0, 0, 1, 0, 0, 3, 0, 0, 0,
  0, 0, 0, 3, 0, 2, 2, 0, 0, 0, 3, 0, 0, 0, 0, 2, 0, 3, 0, 0, 0, 0, 2, 0, 3, 0, 0, 0, 0, 2, 2, 2]

/-- After an EXTRACT_TILES that left that one record, with LOAD_TILE's operand `k`. -/
def oneTile (k : Word) : State := { State.reset with arg0 := k, tilesValid := true, tileCount := 1, tmem := writeBytes [] 0 recT7 }

/-! ## Well-formedness and decoding -/

/-- An ill-formed word for the reserved field's check, and one for the opcode's (R83); both are among L2.9's words. -/
theorem test_wf_refuses_reserved : rsvWf 0x00000101 = false ∧ cmdWf 0x00000101 = false ∧ decode 0x00000101 = none := by decide
theorem test_wf_refuses_opcode : opWf 0x00000003 = false ∧ cmdWf 0x00000003 = false ∧ decode 0x00000003 = none := by decide

/-- The words of unit CP's, unit TD's and unit PR's commands: bits 31:8 zero, then the OP column of R81 in binary. -/
theorem test_decode_cp : decode 0b00000000000000000000000000000001 = some .parse ∧
    decode 0b00000000000000000000000000000010 = some .probe := by decide
theorem test_decode_td : decode 0b00000000000000000000000000010000 = some .decodeTile ∧
    decode 0b00000000000000000000000000010001 = some .extractTiles ∧
    decode 0b00000000000000000000000000010010 = some .loadTile := by decide
theorem test_decode_pr : decode 0b00000000000000000000000000100000 = some .resolve := by decide

/-- L2.9. -/
theorem test_decode_illegal : [0x00000000, 0x00000003, 0x00000013, 0x00000021, 0x000000FF, 0x00000101, 0x80000001].all
    (fun w => decode w == none) = true := by decide

/-- Why a word is refused, by name. -/
theorem test_decode_reason : decodeOrReason 0x80000001 = .error .reservedBits ∧ decodeOrReason 0x99 = .error .undefinedOpcode :=
  ⟨rfl, rfl⟩

/-- Each command runs as the first one after reset (V-Z5 to V-Z9, V-L6). -/
theorem test_first_commands : [0x01, 0x02, 0x10, 0x11, 0x12, 0x20].all
    (fun w => (partOf (fun _ => ()) (step (State.reset.withFetchWord 32 w))).isSome) = true := by decide

/-! ## The commands -/

/-- V-P3: a container with a trainer. -/
theorem test_parse_trainer : partOf (fun t => (t.statusWord, [t.rom.hdrW0, t.rom.hdrW1, t.rom.trnOff, t.rom.trnLen, t.rom.prgOff,
    t.rom.prgLen, t.rom.chrOff, t.rom.chrLen])) (exec .parse (prep 0 41488 0 0 (hdr 2 1 0x04 0))) =
    some (0x100, [0x1A53454E, 0x00040102, 0x10, 0x200, 0x210, 0x8000, 0x8210, 0x2000]) := by decide

/-- V-P7: graphics short by one byte. -/
theorem test_parse_short_graphics : partOf (fun t => (t.statusWord, t.errSeg, t.errExpected, t.errActual))
    (exec .parse (prep 0 24591 0 0 (hdr 1 1 0 0))) = some (0x2, .graphics, 0x2000, 0x1FFF) := by decide

/-- V-H4 and V-P11: MAPPER, MIRRORING, HDR_FLAGS, TOTAL_SIZE. -/
theorem test_derived_registers : partOf (fun t => (regValue t .mapper, regValue t .mirroring, regValue t .hdrFlags,
    regValue t .totalSize)) (exec .parse (prep 0 32784 0 0 (hdr 1 2 0x1B 0xA8))) = some (0xA1, 2, 0xD, 0x8010) := by decide

/-- V-Q1. -/
theorem test_probe_true : partOf (fun t => (regValue t .probeResult, t.statusWord)) (exec .probe (prep 0 16 1 0 (hdr 0 0 0 0))) =
    some (1, 0) := by
  rcases h : Config.probeMin <;> simp only [exec, execProbe, Config.probeMinLen, h] <;> decide

/-- V-Q8: only bit 0 of ARG2 counts. -/
theorem test_probe_ext_bit : partOf (fun t => regValue t .probeResult) (exec .probe (prep 0 16 0xFFFFFFFE 0 (hdr 0 0 0 0))) =
    some 0 := by decide

/-- V-T7: the rows and TR_QUERY. -/
theorem test_decode_tile : partOf (fun t => ([t.tr.row0, t.tr.row1, t.tr.row2, t.tr.row3, t.tr.row4, t.tr.row5, t.tr.row6, t.tr.row7],
    t.tr.query)) (exec .decodeTile (prep 0x100 16 7 0x100 vT7)) =
    some ([0xC004, 0x3005, 0x0C04, 0x0304, 0x28C0, 0x8030, 0x200C, 0xA803], 0x4F) := by decide

/-- V-D3: a block of 15 bytes. -/
theorem test_decode_tile_short : partOf (fun t => t.statusWord) (exec .decodeTile (prep 0x100 15 0 0x100 vT7)) = some 3 := by decide

/-- V-X1 with the buffer of L2.6: TILE_COUNT and bytes of tiles 1 and 2. -/
theorem test_extract : partOf (fun t => (t.statusWord, t.tileCount, [80, 88, 96, 97, 160, 177, 183].map t.tmem.read))
    (exec .extractTiles (prep 0x1000 56 0 0x1000 (vT1 ++ vT3 ++ vT7))) =
    some (0x400, 3, [some 0xAA, some 0x55, some 1, some 2, some 0x41, some 1, some 3]) := by decide +kernel

/-- V-X3: fewer than 16 bytes give no tile, and no byte is read. -/
theorem test_extract_none : partOf (fun t => (t.statusWord, t.tileCount)) (exec .extractTiles (prep 0x1000 15 0 0 [])) =
    some (0x400, 0) := by decide

/-- V-L3, on a list of one tile. -/
theorem test_load : partOf (fun t => (t.statusWord, t.tr.index, t.tr.rawW3, t.tr.row1, t.tr.query)) (exec .loadTile (oneTile 0)) =
    some (0x600, 0, 0x87422116, 0x3005, 0x4F) := by decide

/-- V-L4: k = TILE_COUNT. -/
theorem test_load_past_end : partOf (fun t => t.statusWord) (exec .loadTile (oneTile 1)) = some 0x403 := by decide

/-- V-R10: the marker in slot 0, record 3 above it. -/
theorem test_resolve_marker : partOf (fun t => (t.pal.pal0, t.pal.pal2)) (exec .resolve (prep 3 1 0 0 [])) =
    some (0x01000000, (Config.ref (Config.preset 2 2)).setWidth 32) := rfl

/-- V-R10 with a pixel byte of value 2 in TMEM: the colour in PAL2; a byte that is no pixel has none (R178, R64). -/
theorem test_tmem_colour : tmemColour { State.reset with tmem := [(16, 2), (17, 4)], pal := resolvePalette 3 true } 0 0 0 =
    some ((Config.ref (Config.preset 2 2)).setWidth 32) ∧
    tmemColour { State.reset with tmem := [(16, 2), (17, 4)], pal := resolvePalette 3 true } 0 0 1 = none := ⟨rfl, rfl⟩

/-- V-R8: 2^31−1 selects record 1. -/
theorem test_resolve_fallback : partOf (fun t => t.pal.pal3) (exec .resolve (prep 0x7FFFFFFF 0 0 0 [])) =
    some ((Config.ref (Config.preset 0 3)).setWidth 32) := rfl

/-- A host write and read of ARG1 (R22), a read of STATUS after an illegal word (L3-3), V-Z4. -/
theorem test_host_arg : partOf (fun t => t.reads) (core.run 2 { State.reset with pending := [wrNamed .arg1 15, rdNamed .arg1] }) =
    some [.word 15] := by decide

/-- A fill does not wrap past the last host address (R8, R62). -/
theorem test_fill_ends : fillIn 0xFFFFFFFF [1, 2] = [.wrbIn 0xFFFFFFFF 1] := by decide

theorem test_host_illegal : partOf (fun t => t.reads)
    (core.run 2 { State.reset with romValid := true, pending := [wrNamed .cmd 0x99, rdNamed .status] }) = some [.word 0x105] := by decide
theorem test_host_invalid_member : faultOf (step { State.reset with pending := [rdNamed .mapper] }) = some (.invalidGroup .rom) := by
  decide

/-! ## Witnesses: states and operands that meet the hypotheses of each statement, clause by clause, at the boundaries -/

/-- Reset with these accesses to come. -/
def pend (l : List HostAction) : State := { State.reset with pending := l }

theorem next_of {o : Host.Outcome State Fault Refusal} (f : State → Bool) (h : partOf f o = some true) :
    ∃ t, o = .next t ∧ f t = true := by
  cases o with
  | next t => exact ⟨t, rfl, Option.some.inj h⟩
  | fault r => cases h
  | refused r => cases h

theorem runs_of {o : Host.Outcome State Fault Refusal} (h : partOf (fun _ => true) o = some true) : ∃ t, o = .next t :=
  (next_of _ h).imp fun _ => And.left

theorem holds_prep (m : Mem) (a : Nat) (bs : List Byte) : HoldsBytes (writeBytes m a bs) a bs.length (byteAt bs) := by
  intro i hi
  rw [read_writeBytes_inside _ _ hi, byteAt, List.getD_eq_getElem?_getD, List.getElem?_eq_getElem hi]; rfl

theorem fits {n : Nat} (h : n ≤ Config.inMin) : n ≤ Config.inSize := Nat.le_trans h inMin_le_inSize

theorem never_fits {n : Nat} (h : 2 ^ 32 < n) : Config.inSize < n := Nat.lt_of_le_of_lt inSize_le h

theorem inTmem {n : Nat} (h : n < 81) : n < Config.tmemSize := by
  have := inMin_le_inSize
  simp only [Config.tmemSize, Config.tmemTiles, Config.inMin] at *
  omega

/-- The bytes of one graphics unit. -/
@[irreducible] def unitBytes : List Byte := List.replicate 8192 0

theorem unitBytes_length : unitBytes.length = 8192 := by unfold unitBytes; exact List.length_replicate

/-- A parsed container with one graphics unit at IN[0], its 8192 graphics bytes written, EXTRACT_TILES's operands set to it. -/
def chrState : State :=
  { State.reset with
    romValid := true, rom := romOf 0 (hdr 0 1 0 0), arg0 := 16, arg1 := 8192
    inMem := writeBytes [] 16 unitBytes, pending := [.rd 0x001] }

theorem chrState_rom : RomInv chrState.rom where
  magic := by decide
  trnLen := by decide
  prgLen := by decide
  chrLen := by decide
  layout := ⟨0, fits (by decide), by decide, by decide, by decide⟩

theorem chrState_inv : chrState.Inv where
  memory := {
    inWf := writeBytes_wf List.Pairwise.nil _ _
    inRange := fun c hc => by
      rcases mem_writeBytes hc with h | h
      · rw [unitBytes_length] at h
        exact Nat.lt_of_lt_of_le h.2 (fits (by decide))
      · cases h
    tmemWf := List.Pairwise.nil
    tmemRange := fun c hc => by cases hc }
  error := ⟨by decide, fun _ => ⟨rfl, rfl, rfl⟩, fun h => by cases h⟩
  rom := fun _ => chrState_rom
  tr := fun h => by cases h
  tiles := fun h => by cases h
  pal := fun h => by cases h

theorem chrState_written : Written chrState.inMem chrState.arg0.toNat chrState.arg1.toNat := fun i hi =>
  ⟨_, holds_prep [] 16 unitBytes i (by rw [unitBytes_length]; exact hi)⟩

theorem witness_IllegalWordsRecordCode5 : decode 0x13 = none ∧ (pend [.wr 0 0x13]).pending = [.wr 0 0x13] := by decide
theorem witness_IllegalWordsRecordCode5_reserved : decode 0x120 = none ∧ (pend [.wr 0 0x120]).pending = [.wr 0 0x120] := by decide
theorem witness_DecodeEncodeAgree : decode 0x20 = some .resolve := by decide
theorem witness_StepRunsIssuedCommand : (pend [.wr 0 0x11, .reset]).pending = [.wr 0 0x11, .reset] ∧
    decode 0x11 = some .extractTiles := by decide
theorem witness_IdleWithoutAccess : State.reset.pending = [] := rfl
theorem witness_ResetLeaves : { chrState with pending := [.reset] }.pending = [.reset] := rfl

/-- One state per clause; the three reads are done twice. -/
theorem witness_HostAccessSideEffects_writes : (pend [.wr 0x000 1]).pending = [.wr 0x000 1] ∧
    (pend [.wr 0x002 0xFFFFFFFF]).pending = [.wr 0x002 0xFFFFFFFF] ∧ (pend [.wr 0x003 0]).pending = [.wr 0x003 0] ∧
    (pend [.wr 0x004 1]).pending = [.wr 0x004 1] ∧ (pend [.wrbIn 0 1]).pending = [.wrbIn 0 1] := by decide
theorem witness_HostAccessSideEffects_rd : ∃ t, step (pend [.rd 0x001, .rd 0x001]) = .next t := runs_of (by decide)
theorem witness_HostAccessSideEffects_rdbIn : ∃ t, step { prep 0 0 0 7 [5] with pending := [.rdbIn 7, .rdbIn 7] } = .next t :=
  runs_of (by decide)
theorem witness_HostAccessSideEffects_rdbTmem : ∃ t, step { oneTile 0 with pending := [.rdbTmem 79, .rdbTmem 79] } = .next t :=
  runs_of (by decide)

theorem witness_ArgReadsBack : (pend [.wr 0x002 7, .rd 0x002]).pending = [.wr 0x002 7, .rd 0x002] ∧
    (pend [.wr 0x003 7, .rd 0x003]).pending = [.wr 0x003 7, .rd 0x003] ∧
    (pend [.wr 0x004 7, .rd 0x004]).pending = [.wr 0x004 7, .rd 0x004] := by decide
theorem witness_UnmappedAndReadOnly_read : (pend [.rd 0x3FF]).pending = [.rd 0x3FF] ∧ regAt 0x3FF = none ∧
    (pend [.rd 0x000]).pending = [.rd 0x000] ∧ regAt 0x000 = some .cmd := by decide
theorem witness_UnmappedAndReadOnly_write : (pend [.wr 0x001 9]).pending = [.wr 0x001 9] ∧ regAt 0x001 = some .status ∧
    (pend [.wr 0x009 9]).pending = [.wr 0x009 9] ∧ regAt 0x009 = none := by decide
theorem witness_UnmappedAndReadOnly_reads : ∃ t, step (pend [.rd 0x3FF]) = .next t := runs_of (by decide)
theorem witness_RegisterOffsets : regAt 0x063 = some (.pal 3) := by decide

theorem witness_InReadsBack_write : (0x5FA20F : Word).toNat < Config.inSize ∧ (pend [.wrbIn 0x5FA20F 1]).pending = [.wrbIn 0x5FA20F 1] :=
  ⟨fits (by decide), rfl⟩
theorem witness_InReadsBack_read : (0 : Word).toNat < Config.inSize ∧
    { prep 0 0 0 0 [5] with pending := [.rdbIn 0] }.pending = [.rdbIn 0] ∧ (prep 0 0 0 0 [5]).inMem.read 0 = some 5 :=
  ⟨fits (by decide), rfl, rfl⟩
theorem witness_InReadsBack_command : ∃ t, exec .resolve State.reset = .next t := ⟨_, rfl⟩

/-- Out of range is possible only where IN_SIZE, or TMEM, is smaller than what a 32-bit address reaches. -/
theorem witness_OutOfRangeBytes_in (h : Config.inSize < 2 ^ 32) : Config.inSize ≤ (0xFFFFFFFF : Word).toNat ∧
    (pend [.rdbIn 0xFFFFFFFF]).pending = [.rdbIn 0xFFFFFFFF] ∧ (pend [.wrbIn 0xFFFFFFFF 1]).pending = [.wrbIn 0xFFFFFFFF 1] :=
  ⟨Nat.le_of_lt_succ h, rfl, rfl⟩
theorem witness_OutOfRangeBytes_tmem (h : Config.tmemSize < 2 ^ 32) : Config.tmemSize ≤ (0xFFFFFFFF : Word).toNat ∧
    (pend [.rdbTmem 0xFFFFFFFF]).pending = [.rdbTmem 0xFFFFFFFF] := ⟨Nat.le_of_lt_succ h, rfl⟩
theorem witness_OutOfRangeBytes_write : (pend [.wrbTmem 0 1]).pending = [.wrbTmem 0 1] := rfl

theorem witness_InvalidMemberReadFaults_reg : (pend [.rd (Reg.word .totalSize)]).pending = [.rd (Reg.word .totalSize)] ∧
    Reg.group .totalSize = some .rom ∧ (pend [.rd (Reg.word .totalSize)]).groupValid .rom = false := by decide
theorem witness_InvalidMemberReadFaults_tmem : (pend [.rdbTmem 79]).pending = [.rdbTmem 79] ∧
    (79 : Word).toNat < Config.tmemSize ∧ (pend [.rdbTmem 79]).tilesValid = false :=
  ⟨rfl, inTmem (by decide), rfl⟩
theorem witness_ReadableRegisterReads : (pend [.rd (Reg.word .status)]).pending = [.rd (Reg.word .status)] ∧
    Reg.group .status = none ∧ { chrState with pending := [.rd (Reg.word .chrLen)] }.pending = [.rd (Reg.word .chrLen)] ∧
    Reg.group .chrLen = some .rom ∧ chrState.groupValid .rom = true := ⟨rfl, rfl, rfl, rfl, rfl⟩
/-- A control register, and a member of each group with its VALID bit set, at the ends of the groups' offsets. -/
theorem witness_ReadableRegisterReads_stored : (pend [.rd (BitVec.ofNat 10 (0x01C / 4))]).pending = [.rd (BitVec.ofNat 10 (0x01C / 4))] ∧
    { chrState with pending := [.rd (BitVec.ofNat 10 (0x094 / 4))] }.pending = [.rd (BitVec.ofNat 10 (0x094 / 4))] ∧
    chrState.romValid = true ∧ { State.reset with trValid := true, pending := [.rd (BitVec.ofNat 10 (0x13C / 4))] }.trValid = true ∧
    { oneTile 0 with pending := [.rd (BitVec.ofNat 10 (0x140 / 4))] }.tilesValid = true ∧
    { State.reset with palValid := true, pending := [.rd (BitVec.ofNat 10 (0x18C / 4))] }.palValid = true := ⟨rfl, rfl, rfl, rfl, rfl, rfl⟩
theorem witness_TmemHostRead : { oneTile 0 with pending := [.rdbTmem 79] }.pending = [.rdbTmem 79] ∧
    { oneTile 0 with pending := [.rdbTmem 80] }.pending = [.rdbTmem 80] ∧ (80 : Word).toNat < Config.tmemSize ∧
    (oneTile 0).tilesValid = true ∧ (79 : Word).toNat < 80 * (oneTile 0).tileCount.toNat ∧ (oneTile 0).tmem.read 79 = some 2 ∧
    80 * (oneTile 0).tileCount.toNat ≤ (80 : Word).toNat :=
  ⟨rfl, rfl, inTmem (by decide),
    rfl, by decide, by decide, by decide⟩

theorem witness_ParseFollowsItsRule_outside : Config.inSize < (0xFFFFFFFF : Word).toNat + (2 : Word).toNat := never_fits (by decide)
theorem witness_ParseFollowsItsRule_short : (0 : Word).toNat + (15 : Word).toNat ≤ Config.inSize ∧ (15 : Word).toNat < 16 ∧
    (Config.shortHeader = .formatError ∨ Config.shortHeader = .incompleteData) :=
  ⟨fits (by decide), by decide, by cases Config.shortHeader <;> simp⟩

/-- The hypotheses PARSE's statement makes once the header is read: for the 16 bytes `bs` at IN[0] and `avail` bytes. -/
theorem witness_ParseFollowsItsRule_header (avail : Word) (bs : List Byte) (h : bs.length = 16) (h1 : 16 ≤ avail.toNat)
    (h2 : avail.toNat ≤ Config.inMin) : (prep 0 avail 0 0 bs).arg0.toNat + (prep 0 avail 0 0 bs).arg1.toNat ≤ Config.inSize ∧
      16 ≤ (prep 0 avail 0 0 bs).arg1.toNat ∧ HoldsBytes (prep 0 avail 0 0 bs).inMem (prep 0 avail 0 0 bs).arg0.toNat 16 (byteAt bs) :=
  ⟨fits (by simpa [prep] using h2), h1, h ▸ holds_prep [] 0 bs⟩
theorem witness_ParseFollowsItsRule_magic : ¬((0x4E : Byte) = 0x4E ∧ (0x45 : Byte) = 0x45 ∧ (0x53 : Byte) = 0x53 ∧ (0 : Byte) = 0x1A) := by
  decide

/-- With the header `hdr 1 1 4 0`, T = 512, P = 16384 and C = 8192: the lengths just below each segment's end, and the container's. -/
theorem witness_ParseFollowsItsRule_sizes : (byteAt (hdr 1 1 4 0) 6).getLsbD 2 = true ∧ byteAt (hdr 1 1 4 0) 4 = 1 ∧
    byteAt (hdr 1 1 4 0) 5 = 1 ∧ 527 - 16 < 512 ∧ (16 + 512 ≤ 16911 ∧ 16911 - 16 - 512 < 16384) ∧
    (16 + 512 + 16384 ≤ 25103 ∧ 25103 - 16 - 512 - 16384 < 8192) ∧ 16 + 512 + 16384 + 8192 ≤ 25104 ∧
    0 + 16 + 512 + 16384 < 2 ^ 32 := by decide
theorem witness_DerivedHeaderRegisters : chrState.romValid = true ∧ ∀ j, j < 4 → (chrState.rom.hdrWord j).toNat =
    (byteAt (hdr 0 1 0 0) (4 * j)).toNat + (byteAt (hdr 0 1 0 0) (4 * j + 1)).toNat * 2 ^ 8 +
      (byteAt (hdr 0 1 0 0) (4 * j + 2)).toNat * 2 ^ 16 + (byteAt (hdr 0 1 0 0) (4 * j + 3)).toNat * 2 ^ 24 := ⟨rfl, by decide⟩
theorem witness_ValidRomDescribesContainer : chrState.Inv ∧ chrState.romValid = true := ⟨chrState_inv, rfl⟩
theorem witness_SegmentsReferToIn : trainerSegment { State.reset with
    inMem := [(5, 1), (6, 2)], rom := { RomGroup.reset with trnOff := 5, trnLen := 2 } } = .ok [1, 2] := rfl
theorem witness_ProbeFollowsItsRule_no : Config.inSize < (0xFFFFFFFF : Word).toNat + (2 : Word).toNat ∧
    (0xFFFFFFFE : Word).getLsbD 0 = false ∧ (3 : Word).toNat < Config.probeMinLen :=
  ⟨never_fits (by decide), by decide, by unfold Config.probeMinLen; cases Config.probeMin <;> decide⟩
theorem witness_ProbeFollowsItsRule_read : (prep 0 16 1 0 (hdr 0 0 0 0)).arg0.toNat + (prep 0 16 1 0 (hdr 0 0 0 0)).arg1.toNat ≤
    Config.inSize ∧ (prep 0 16 1 0 (hdr 0 0 0 0)).arg2.getLsbD 0 = true ∧ Config.probeMinLen ≤ (16 : Word).toNat ∧
    HoldsBytes (prep 0 16 1 0 (hdr 0 0 0 0)).inMem 0 4 (byteAt (hdr 0 0 0 0)) :=
  ⟨fits (by decide), by decide, by unfold Config.probeMinLen; cases Config.probeMin <;> decide,
    fun i hi => holds_prep [] 0 (hdr 0 0 0 0) i (Nat.lt_of_lt_of_le hi (by decide))⟩

theorem witness_PixelLanes : (byteAt vT1 7).getLsbD (7 - 7) = (byteAt vT3 7).getLsbD (7 - 7) ∧
    (byteAt vT1 15).getLsbD (7 - 7) = (byteAt vT3 15).getLsbD (7 - 7) ∧ byteAt vT1 0 ≠ byteAt vT3 0 := by decide
theorem witness_DecodeIsBijection : 15 < 16 ∧ 7 < 8 := by decide
theorem witness_DecodeTileFollowsItsRule_bad : Config.inSize < (0xFFFFFFFF : Word).toNat + (2 : Word).toNat ∧ (15 : Word).toNat < 16 :=
  ⟨never_fits (by decide), by decide⟩
theorem witness_DecodeTileFollowsItsRule : (prep 0x100 16 0 0x100 vT7).arg0.toNat + (prep 0x100 16 0 0x100 vT7).arg1.toNat ≤
    Config.inSize ∧ 16 ≤ (prep 0x100 16 0 0x100 vT7).arg1.toNat ∧ HoldsBytes (prep 0x100 16 0 0x100 vT7).inMem 0x100 16 (byteAt vT7) :=
  ⟨fits (by decide), by decide, holds_prep [] 0x100 vT7⟩
theorem witness_ExtractTilesFollowsItsRule : (prep 0x1000 40 0 0x1000 (vT3 ++ vT7)).arg0.toNat +
    (prep 0x1000 40 0 0x1000 (vT3 ++ vT7)).arg1.toNat ≤ Config.inSize ∧ 40 / 16 = 2 ∧
    ∀ k, k < 2 → HoldsBytes (prep 0x1000 40 0 0x1000 (vT3 ++ vT7)).inMem (0x1000 + 16 * k) 16
      (fun i => byteAt (vT3 ++ vT7) (16 * k + i)) :=
  ⟨fits (by decide), by decide, fun k hk i hi => by
    have := holds_prep [] 0x1000 (vT3 ++ vT7) (16 * k + i) (by simp [vT3, vT7]; omega)
    rw [← Nat.add_assoc] at this
    exact this⟩
theorem witness_ExtractTilesFollowsItsRule_outside : Config.inSize < (0xFFFFFFFF : Word).toNat + (2 : Word).toNat :=
  never_fits (by decide)

/-- A parsed container's whole graphics segment; its length is 1 × 8192. -/
theorem witness_TileCountLaw : (∃ t, exec .extractTiles chrState = .next t ∧ t.err = .ok) ∧ chrState.Inv ∧ chrState.romValid = true ∧
    chrState.arg1 = chrState.rom.chrLen ∧ chrState.arg1.toNat = 1 * 8192 := by
  refine ⟨?_, chrState_inv, rfl, by decide, by decide⟩
  have two : 16 * (opAvail chrState / 16) = chrState.arg1.toNat := by decide
  have hw : Written chrState.inMem (opBase chrState) (16 * (opAvail chrState / 16)) := by rw [two]; exact chrState_written
  obtain ⟨m, hm⟩ := extractRecords_of_written (tmem := chrState.tmem) hw
  have adm : opBase chrState + opAvail chrState ≤ Config.inSize := fits (by decide)
  have run : exec .extractTiles chrState = _ := (execExtractTiles_read adm).1 m hm
  exact ⟨_, run, State.finish_err _⟩

theorem witness_LoadTileFollowsItsRule_bad : State.reset.tilesValid = false ∧ (oneTile 1).tileCount.toNat ≤ (oneTile 1).arg0.toNat := by
  decide
theorem witness_LoadTileFollowsItsRule : (oneTile 0).tilesValid = true ∧ (oneTile 0).arg0.toNat < (oneTile 0).tileCount.toNat ∧
    HoldsBytes (oneTile 0).tmem (80 * 0) 80 (byteAt recT7) := ⟨rfl, by decide, holds_prep [] 0 recT7⟩
theorem witness_LoadEqualsDecode : (∃ t, exec .extractTiles (prep 0x1000 16 0 0x1000 vT7) = .next t ∧
    decide (t.err = .ok ∧ (0 : Word).toNat < t.tileCount.toNat) = true) ∧
    (0x1000 : Word).toNat = (prep 0x1000 16 0 0x1000 vT7).arg0.toNat + 16 * (0 : Word).toNat :=
  ⟨next_of _ (by decide), by decide⟩
theorem witness_TileQuery : { State.reset with trValid := true }.trValid = true := rfl

/-- Index 0, the ends of 1..9, and the nearest indices outside, with both flags. -/
theorem witness_ResolveFollowsItsRule : (0 : Word).toInt = 0 ∧ (1 : Word).toInt = (0 : Fin 9).val + 1 ∧
    (9 : Word).toInt = (8 : Fin 9).val + 1 ∧ (0xFFFFFFFF : Word).toInt < 0 ∧ 9 < (10 : Word).toInt ∧
    (1 : Word).getLsbD 0 = true ∧ (0xFFFFFFFE : Word).getLsbD 0 = false := by decide
theorem witness_OutOfRangeIndexFallsBack : (0x80000000 : Word).toInt < 0 ∧ (0xFFFFFFFF : Word).toInt < 0 ∧ 9 < (10 : Word).toInt ∧
    9 < (0x7FFFFFFF : Word).toInt := by decide
theorem witness_MarkerOnlyForPixelZero : 7 < 8 ∧ ∃ t, exec .resolve (prep 0 1 0 0 []) = .next t := ⟨by decide, _, rfl⟩

theorem witness_ParseProbeFrame : (∃ t, exec .parse (prep 0 16 0 0 (hdr 0 0 0 0)) = .next t) ∧
    ∃ t, exec .probe (prep 0 16 0 0 (hdr 0 0 0 0)) = .next t := ⟨runs_of (by decide), runs_of (by decide)⟩
theorem witness_TileRegisterAndPaletteFrame : (∃ t, exec .decodeTile (prep 0x100 16 7 0x100 vT7) = .next t) ∧
    (∃ t, exec .loadTile (oneTile 0) = .next t) ∧ ∃ t, exec .resolve State.reset = .next t :=
  ⟨runs_of (by decide), runs_of (by decide), _, rfl⟩
theorem witness_ExtractTilesFrame : (∃ t, exec .extractTiles (prep 0x1000 16 0 0x1000 vT7) = .next t) ∧
    ∃ t, exec .extractTiles (prep 0xFFFFFFFF 2 0 0 []) = .next t ∧ t.err ≠ .ok :=
  ⟨runs_of (by decide), _, execExtractTiles_outside (never_fits (by decide)), by decide⟩

/-- An error of each command that raises one, and an illegal word. -/
theorem witness_FailedCommandInvalidates : (∃ t, exec .parse (prep 0 16 0 0 vT7) = .next t ∧ decide (t.err ≠ .ok) = true) ∧
    (∃ t, exec .decodeTile State.reset = .next t ∧ decide (t.err ≠ .ok) = true) ∧
    (∃ t, exec .loadTile State.reset = .next t ∧ decide (t.err ≠ .ok) = true) ∧
    (∃ t, exec .extractTiles (prep 0xFFFFFFFF 2 0 0 []) = .next t ∧ t.err ≠ .ok) ∧
    decode 0x99 = none ∧ ∃ t, issueCommand 0x99 State.reset = .next t :=
  ⟨next_of _ (by decide), next_of _ (by decide), next_of _ (by decide),
    ⟨_, execExtractTiles_outside (never_fits (by decide)), by decide⟩, by decide, runs_of (by decide)⟩

/-- A success of each command. -/
theorem witness_GroupsAndTheirCommands : (∃ t, exec .parse (prep 0 16 0 0 (hdr 0 0 0 0)) = .next t ∧ decide (t.err = .ok) = true) ∧
    (∃ t, exec .decodeTile (prep 0x100 16 7 0x100 vT7) = .next t ∧ decide (t.err = .ok) = true) ∧
    (∃ t, exec .loadTile (oneTile 0) = .next t ∧ decide (t.err = .ok) = true) ∧
    (∃ t, exec .extractTiles (prep 0x1000 16 0 0x1000 vT7) = .next t ∧ decide (t.err = .ok) = true) ∧
    ∃ t, exec .resolve State.reset = .next t ∧ decide (t.err = .ok) = true :=
  ⟨next_of _ (by decide), next_of _ (by decide), next_of _ (by decide), next_of _ (by decide), next_of _ (by decide)⟩

/-- Another byte just past the region 0 .. 15, with a command that completes and with one that faults. -/
theorem witness_BytesOutsideRegionDoNotMatter : (∀ a, a < 0 + 16 → (writeBytes [] 0 (hdr 0 0 0 0 ++ [1])).read a =
      (prep 0 16 0 0 (hdr 0 0 0 0)).inMem.read a) ∧ (∃ t, exec .parse (prep 0 16 0 0 (hdr 0 0 0 0)) = .next t) ∧
    (∀ a, a < 0 + 16 → Mem.read [(16, 1)] a = (prep 0 16 0 0 []).inMem.read a) ∧
    exec .parse (prep 0 16 0 0 []) = .fault (.unwrittenIn 0) :=
  ⟨by decide, runs_of (by decide), by decide, rfl⟩

theorem witness_UnwrittenInputFaults : (prep 0 16 1 0 []).arg0.toNat + (prep 0 16 1 0 []).arg1.toNat ≤ Config.inSize ∧
    16 ≤ (prep 0 16 1 0 []).arg1.toNat ∧ ¬Written (prep 0 16 1 0 []).inMem 0 16 ∧ Config.probeMinLen ≤ (16 : Word).toNat ∧
    (prep 0 16 1 0 []).arg2.getLsbD 0 = true ∧ ¬Written (prep 0 16 1 0 []).inMem 0 4 ∧
    ¬Written (prep 0 16 1 0 []).inMem 0 (16 * (16 / 16)) := by
  have no : ∀ n, 0 < n → ¬Written (prep 0 16 1 0 []).inMem 0 n := fun n hn h => by
    obtain ⟨b, hb⟩ := h 0 hn
    cases hb
  exact ⟨fits (by decide), by decide, no 16 (by decide), by unfold Config.probeMinLen; cases Config.probeMin <;> decide, by decide,
    no 4 (by decide), no _ (by decide)⟩
theorem witness_UnwrittenInputFaults_host : (0x5FA20F : Word).toNat < Config.inSize ∧ (pend [.rdbIn 0x5FA20F]).pending = [.rdbIn 0x5FA20F] ∧
    (pend [.rdbIn 0x5FA20F]).inMem.read (0x5FA20F : Word).toNat = none := ⟨fits (by decide), rfl, rfl⟩
theorem witness_CommandsComplete : chrState.Inv ∧ chrState.arg0.toNat + chrState.arg1.toNat ≤ Config.inSize ∧
    Written chrState.inMem chrState.arg0.toNat chrState.arg1.toNat := ⟨chrState_inv, fits (by decide), chrState_written⟩
theorem witness_StepKeepsInvariant : chrState.Inv ∧ ∃ t, step chrState = .next t := ⟨chrState_inv, _, rfl⟩
theorem witness_ReservedCodesNeverRead : chrState.Inv ∧ ∃ t, core.run 1 chrState = .next t := ⟨chrState_inv, _, rfl⟩

/-- V-T7's row 0, 0xC004, has the values 0, 1 and 3, and its row 7, 0xA803, the value 2; the same values stand in TMEM. A LOAD_TILE of
the tile succeeds in a state that meets the invariant. -/
theorem witness_PixelColours_tr : 0 = 0xC004 / 4 ^ 0 % 4 ∧ 1 = 0xC004 / 4 ^ 1 % 4 ∧ 3 = 0xC004 / 4 ^ 7 % 4 ∧ 2 = 0xA803 / 4 ^ 7 % 4 ∧
    { State.reset with tr := { TrGroup.reset with row0 := 0xC004, row7 := 0xA803 } }.tr.row 7 = 0xA803 := by decide

/-- A pixel byte of each value among TMEM's record of V-T7, and a LOAD_TILE that succeeds in a state that meets the invariant. -/
def tileState : State := oneTile 0

theorem tileState_inv : tileState.Inv where
  memory := {
    inWf := List.Pairwise.nil
    inRange := fun c hc => by cases hc
    tmemWf := writeBytes_wf List.Pairwise.nil _ _
    tmemRange := fun c hc => by
      rcases mem_writeBytes hc with h | h
      · exact inTmem (Nat.lt_succ_of_lt h.2)
      · cases h }
  error := ⟨by decide, fun _ => ⟨rfl, rfl, rfl⟩, fun h => by cases h⟩
  rom := fun h => by cases h
  tr := fun h => by cases h
  tiles := fun _ => ⟨by
      have := inMin_le_inSize
      have one : tileState.tileCount.toNat = 1 := rfl
      simp only [Config.tmemTiles, Config.inMin] at *
      omega, fun k hk => by
      have : k = 0 := Nat.lt_one_iff.1 hk
      subst this
      have pixels : ∀ y, y < 8 → ∀ x, x < 8 → tileState.tmem.read (80 * 0 + 16 + 8 * y + x) =
          some ((decodePixel (byteAt vT7) y x).setWidth 8) := by decide
      exact ⟨byteAt vT7, by decide, fun y x hy hx => pixels y hy x hx⟩⟩
  pal := fun h => by cases h

theorem witness_PixelColours : tileState.tmem.read (80 * 0 + 16 + 8 * 4 + 0) = some 0 ∧
    tileState.tmem.read (80 * 0 + 16 + 8 * 0 + 1) = some 1 ∧ tileState.tmem.read (80 * 0 + 16 + 8 * 7 + 7) = some 2 ∧
    tileState.tmem.read (80 * 0 + 16 + 8 * 0 + 7) = some 3 ∧ tileState.Inv ∧
    ∃ t, exec .loadTile tileState = .next t ∧ decide (t.err = .ok) = true :=
  ⟨by decide, by decide, by decide, by decide, tileState_inv, next_of _ (by decide)⟩

end Sys2Proof.Tests
end

section
/-! PROOFS. The frames of the six commands (R12): each next state is the old one with only the outcome and the command's own result
group, or PROBE_RESULT, replaced. O34, O35 and O36 read the unchanged fields off these updates. -/

namespace Sys2Proof.Machine

section Frames

variable {s t : State}

/-- An error of the ROM group's command, as an update: ROM_VALID is 0 (R201, R204). -/
theorem State.raise_romGroup (e : ErrRecord) : s.raise e (some .rom) = { s with
    err := e.code, errSeg := e.seg, errExpected := e.expected, errActual := e.actual, romValid := false } := by
  simp [State.raise]

/-- An error of the TR group's commands, as an update: TR_VALID is 0 (R201, R204). -/
theorem State.raise_trGroup (e : ErrRecord) : s.raise e (some .tr) = { s with
    err := e.code, errSeg := e.seg, errExpected := e.expected, errActual := e.actual, trValid := false } := by
  simp [State.raise]

/-- An error of the TILES group's command, as an update: TILES_VALID is 0 (R201, R204). -/
theorem State.raise_tilesGroup (e : ErrRecord) : s.raise e (some .tiles) = { s with
    err := e.code, errSeg := e.seg, errExpected := e.expected, errActual := e.actual, tilesValid := false } := by
  simp [State.raise]

/-- Outside the outcome, PARSE can change the ROM group and ROM_VALID only. -/
theorem exec_parse_frame (h : exec .parse s = .next t) : t = { s with
    err := t.err, errSeg := t.errSeg, errExpected := t.errExpected, errActual := t.errActual
    rom := t.rom, romValid := t.romValid } := by
  obtain ⟨e, -, rfl⟩ | ⟨bs, -, -, -, -, -, rfl⟩ := execParse_cases h
  · rw [State.raise_romGroup]
  · rfl

/-- Outside the outcome, PROBE can change PROBE_RESULT only. -/
theorem exec_probe_frame (h : exec .probe s = .next t) : t = { s with
    err := t.err, errSeg := t.errSeg, errExpected := t.errExpected, errActual := t.errActual
    probeResult := t.probeResult } := by
  obtain ⟨r, rfl⟩ := execProbe_cases h
  rfl

/-- Outside the outcome, DECODE_TILE and LOAD_TILE can change the TR group and TR_VALID only. -/
theorem exec_trCommand_frame (h : exec .decodeTile s = .next t ∨ exec .loadTile s = .next t) : t = { s with
    err := t.err, errSeg := t.errSeg, errExpected := t.errExpected, errActual := t.errActual
    tr := t.tr, trValid := t.trValid } := by
  have cases_tr : t = s.raise argumentError (some .tr) ∨ ∃ g, t = (s.withTr g).finish := by
    obtain h | h := h
    · exact (execDecodeTile_cases h).imp_right fun ⟨_, _, _, _, ht⟩ => ⟨_, ht⟩
    · exact (execLoadTile_cases h).imp_right fun ⟨_, _, _, _, ht⟩ => ⟨_, ht⟩
  obtain rfl | ⟨g, rfl⟩ := cases_tr
  · rw [State.raise_trGroup]
  · rfl

/-- Outside the outcome, EXTRACT_TILES can change TILE_COUNT, TMEM and TILES_VALID only. -/
theorem exec_extractTiles_frame (h : exec .extractTiles s = .next t) : t = { s with
    err := t.err, errSeg := t.errSeg, errExpected := t.errExpected, errActual := t.errActual
    tileCount := t.tileCount, tmem := t.tmem, tilesValid := t.tilesValid } := by
  obtain rfl | ⟨m, -, -, rfl⟩ := execExtractTiles_cases h
  · rw [State.raise_tilesGroup]
  · rfl

/-- Outside the outcome, RESOLVE can change the PAL group and PAL_VALID only. -/
theorem exec_resolve_frame (h : exec .resolve s = .next t) : t = { s with
    err := t.err, errSeg := t.errSeg, errExpected := t.errExpected, errActual := t.errActual
    pal := t.pal, palValid := t.palValid } := by
  cases (execResolve_eq s).symm.trans h
  rfl

/-- EXTRACT_TILES writes no TMEM byte past its last record (R64, R143). -/
theorem exec_extractTiles_tmem_above (h : exec .extractTiles s = .next t) {a : Nat} (ha : 80 * (s.arg1.toNat / 16) ≤ a) :
    t.tmem.read a = s.tmem.read a := by
  obtain rfl | ⟨m, -, hm, rfl⟩ := execExtractTiles_cases h
  · rfl
  · obtain ⟨-, above, -, -⟩ := extractRecords_ok hm
    exact above a ha

/-- An EXTRACT_TILES that raises an error writes neither TILE_COUNT nor TMEM (R143, R203). -/
theorem exec_extractTiles_failed (h : exec .extractTiles s = .next t) (he : t.err ≠ .ok) :
    t.tileCount = s.tileCount ∧ t.tmem = s.tmem := by
  obtain rfl | ⟨m, -, -, rfl⟩ := execExtractTiles_cases h
  · exact ⟨rfl, rfl⟩
  · exact absurd rfl he

end Frames

/-- Settles O34: each of the two commands answers an update of its own group, or of PROBE_RESULT, and of the outcome. -/
theorem parseProbeFrame : Obligations.ParseProbeFrame := by
  unfold Obligations.ParseProbeFrame
  intro s t
  refine ⟨fun h => ?_, fun h => ?_, fun h => ?_⟩
  · rw [exec_parse_frame h]
  · rw [exec_probe_frame h]
    exact ⟨rfl, rfl⟩
  · obtain h | h := h
    · rw [exec_parse_frame h]
      simp
    · rw [exec_probe_frame h]
      simp

/-- Settles O35: DECODE_TILE and LOAD_TILE share one frame, the TR group's; RESOLVE has the PAL group's. -/
theorem tileRegisterAndPaletteFrame : Obligations.TileRegisterAndPaletteFrame := by
  unfold Obligations.TileRegisterAndPaletteFrame
  intro s t
  refine ⟨fun h => ?_, fun h => ?_, fun h => ?_⟩
  · rw [exec_trCommand_frame h]
    exact ⟨rfl, rfl⟩
  · rw [exec_resolve_frame h]
    exact ⟨rfl, rfl⟩
  · obtain h | h := or_assoc.2 h
    · rw [exec_trCommand_frame h]
      simp
    · rw [exec_resolve_frame h]
      simp

/-- Settles O36: the registers by EXTRACT_TILES's frame, TMEM by what its loop writes, both by its one error case. -/
theorem extractTilesFrame : Obligations.ExtractTilesFrame := by
  unfold Obligations.ExtractTilesFrame
  intro s t h
  have above : ∀ a, 80 * (s.arg1.toNat / 16) ≤ a → t.tmem.read a = s.tmem.read a :=
    fun a ha => exec_extractTiles_tmem_above h ha
  have failed : t.err ≠ .ok → t.tileCount = s.tileCount ∧ ∀ a, t.tmem.read a = s.tmem.read a := fun he => by
    obtain ⟨hcount, htmem⟩ := exec_extractTiles_failed h he
    exact ⟨hcount, fun a => by rw [htmem]⟩
  rw [exec_extractTiles_frame h]
  exact ⟨rfl, rfl, rfl, rfl, rfl, rfl, rfl, rfl, rfl, rfl, fun _ => rfl, above, failed, rfl, rfl⟩

end Sys2Proof.Machine
end

section
/-! PROOFS. Host reads and writes of the register window (R39, R40, R26), and the bits of STATUS (R23). First one rule per access:
which register a word holds, what a write and a read of a register answer; then O13, O9, O8, O10, O14 and O16 from these rules. -/

namespace Sys2Proof.Machine

variable {s t : State} {r : Reg} {g : Group} {o : BitVec 10} {v : Word} {rest : List HostAction}

/-! ## The register map -/

/-- Every entry of the map stands at its register's own byte offset. -/
theorem registerMap_offset : ∀ e ∈ registerMap, e.2.offset = e.1 := by decide

theorem offset_of_regAt (h : regAt o = some r) : r.offset = 4 * o.toNat := by
  obtain ⟨before, after, hmap, -⟩ := List.lookup_eq_some_iff.1 h
  exact registerMap_offset (4 * o.toNat, r) (by simp [hmap])

/-! ## Reads of a register -/

@[simp] theorem State.withPending_groupValid (l : List HostAction) : (s.withPending l).groupValid g = s.groupValid g := by
  cases g <;> rfl

@[simp] theorem State.withPending_regValue (l : List HostAction) : regValue (s.withPending l) r = regValue s r := by
  cases r <;> rfl

/-- Whether a register is in no group, or in one whose VALID bit is 1 (R25, R26). -/
def State.readable (s : State) (r : Reg) : Bool := r.group.all s.groupValid

theorem State.readable_iff : s.readable r = true ↔ ∀ g, r.group = some g → s.groupValid g = true := Option.all_eq_true ..

@[simp] theorem State.withPending_readable (l : List HostAction) : (s.withPending l).readable r = s.readable r := by
  rw [Bool.eq_iff_iff]
  simp [State.readable_iff]

theorem readReg_readable (h : s.readable r = true) : readReg r s = .ok (regValue s r) := by
  unfold readReg
  cases hg : r.group with
  | none => rfl
  | some g => simp [State.readable_iff.1 h g hg]

theorem readReg_invalid (hg : r.group = some g) (h : s.groupValid g = false) : readReg r s = .error (.invalidGroup g) := by
  simp [readReg, hg, h]

theorem hostRead_mapped (h : regAt o = some r) : hostRead o s = readReg r s := by
  simp [hostRead, h]

theorem hostRead_unmapped (h : regAt o = none) : hostRead o s = .ok 0 := by
  simp [hostRead, h]

theorem step_rd_ok (hp : s.pending = .rd o :: rest) (h : hostRead o (s.withPending rest) = .ok v) :
    step s = .next { s with pending := rest, reads := .word v :: s.reads } := by
  rw [step_cons hp, hostAct, h]
  rfl

theorem step_rd_error {f : Fault} (hp : s.pending = .rd o :: rest) (h : hostRead o (s.withPending rest) = .error f) :
    step s = .fault f := by
  rw [step_cons hp, hostAct, h]
  rfl

/-- A host read of a readable register hands over its value and changes nothing of NXB (R40, R71). -/
theorem step_rd_readable (hp : s.pending = .rd o :: rest) (ho : regAt o = some r) (h : s.readable r = true) :
    step s = .next { s with pending := rest, reads := .word (regValue s r) :: s.reads } :=
  step_rd_ok hp (by rw [hostRead_mapped ho, readReg_readable (by simpa using h), State.withPending_regValue])

theorem readOutcome_next {x : Except Fault ReadValue} (h : readOutcome x s = .next t) : ∃ v, t = s.withRead v := by
  cases x with
  | error f => cases h
  | ok v => cases h; exact ⟨v, rfl⟩

/-- Every host read, of a register, of IN or of TMEM, goes through `readOutcome`. -/
theorem hostAct_read_next {a : HostAction} (ha : (∃ q, a = .rd q) ∨ (∃ x, a = .rdbIn x) ∨ ∃ x, a = .rdbTmem x)
    (h : hostAct a s = .next t) : ∃ v, t = s.withRead v := by
  obtain ⟨_, rfl⟩ | ⟨_, rfl⟩ | ⟨_, rfl⟩ := ha <;> exact readOutcome_next h

theorem hostReadTmem_invalid {a : Nat} (ha : a < Config.tmemSize) (h : s.tilesValid = false) :
    hostReadTmem a s = .error (.invalidGroup .tiles) := by
  simp [hostReadTmem, (withinTmem_iff (a + 1)).2 ha, h]

/-! ## Writes to a register -/

theorem step_wr_mapped (hp : s.pending = .wr o v :: rest) (ho : regAt o = some r) :
    step s = writeReg r v (s.withPending rest) := by
  simp [step_cons hp, hostAct, hostWrite, ho]

theorem step_wr_unmapped (hp : s.pending = .wr o v :: rest) (ho : regAt o = none) :
    step s = .next (s.withPending rest) := by
  simp [step_cons hp, hostAct, hostWrite, ho]

theorem writeReg_readOnly (h : r ≠ .cmd ∧ r ≠ .arg0 ∧ r ≠ .arg1 ∧ r ≠ .arg2) : writeReg r v s = .next s := by
  obtain ⟨hcmd, h0, h1, h2⟩ := h
  unfold writeReg
  split
  · exact absurd rfl hcmd
  · exact absurd rfl h0
  · exact absurd rfl h1
  · exact absurd rfl h2
  · rfl

/-- An ARG register takes the word written and reads as it (R22); the host's own record stays. -/
theorem writeReg_arg (h : r = .arg0 ∨ r = .arg1 ∨ r = .arg2) :
    ∃ t, writeReg r v s = .next t ∧ regValue t r = v ∧ t.readable r = true ∧ t.pending = s.pending ∧ t.reads = s.reads := by
  obtain rfl | rfl | rfl := h
  · exact ⟨s.withArg0 v, rfl, rfl, rfl, rfl, rfl⟩
  · exact ⟨s.withArg1 v, rfl, rfl, rfl, rfl, rfl⟩
  · exact ⟨s.withArg2 v, rfl, rfl, rfl, rfl, rfl⟩

/-! ## The bits of STATUS -/

@[simp] theorem bitWord_getLsbD (b : Bool) (i : Nat) : (bitWord b).getLsbD i = (decide (i = 0) && b) := by
  cases b <;> simp [bitWord, BitVec.getLsbD_one]

/-- Each bit of STATUS: a bit of the outcome's code, one of the four VALID bits, or 0 (R23). -/
theorem State.statusWord_getLsbD (i : Nat) : s.statusWord.getLsbD i =
    (s.err.code.getLsbD i || (decide (i = 8) && s.romValid) || (decide (i = 9) && s.trValid) ||
      (decide (i = 10) && s.tilesValid) || (decide (i = 11) && s.palValid)) := by
  have placed (b : Bool) (n : Nat) (hn : n < 32) : (bitWord b <<< n).getLsbD i = (decide (i = n) && b) := by
    rw [BitVec.getLsbD_shiftLeft, bitWord_getLsbD, ← Bool.and_assoc]
    congr 1
    simp only [← Bool.decide_and, ← decide_not, decide_eq_decide]
    omega
  have code : (s.err.code.setWidth 32).getLsbD i = s.err.code.getLsbD i := by
    rw [BitVec.getLsbD_setWidth]
    by_cases h : i < 32
    · simp [h]
    · simp [h, BitVec.getLsbD_of_ge s.err.code i (by omega)]
  simp only [State.statusWord, BitVec.getLsbD_or, placed, code, Nat.reduceLT]

theorem State.statusWord_err : s.statusWord.extractLsb' 0 4 = s.err.code := by
  refine BitVec.eq_of_getLsbD_eq fun i hi => ?_
  simp [State.statusWord_getLsbD, show i ≠ 8 ∧ i ≠ 9 ∧ i ≠ 10 ∧ i ≠ 11 by omega, hi]

/-- A field of STATUS that holds neither a code bit nor a VALID bit is 0. -/
theorem State.statusWord_zero {lo len : Nat} (h : 4 ≤ lo) (h' : lo + len ≤ 8 ∨ 12 ≤ lo) :
    s.statusWord.extractLsb' lo len = 0 := by
  refine BitVec.eq_of_getLsbD_eq fun i hi => ?_
  have hne : lo + i ≠ 8 ∧ lo + i ≠ 9 ∧ lo + i ≠ 10 ∧ lo + i ≠ 11 := by omega
  simp [State.statusWord_getLsbD, hne, BitVec.getLsbD_of_ge s.err.code (lo + i) (by omega)]

/-! ## The stored registers -/

/-- The registers that hold no derived value, in the order of the map (R39). -/
def storedRegs : List Reg :=
  [.cmd, .status, .arg0, .arg1, .arg2, .errSeg, .errExpected, .errActual, .probeResult, .hdrW 0, .hdrW 1, .hdrW 2, .hdrW 3,
   .trnOff, .trnLen, .prgOff, .prgLen, .chrOff, .chrLen, .trIndex, .trRaw 0, .trRaw 1, .trRaw 2, .trRaw 3, .trRow 0, .trRow 1,
   .trRow 2, .trRow 3, .trRow 4, .trRow 5, .trRow 6, .trRow 7, .tileCount, .pal 0, .pal 1, .pal 2, .pal 3]

/-- A register as O14 tabulates it: its byte offset, whether it is readable, its value. -/
def State.regEntry (s : State) (r : Reg) : Nat × Bool × Word := (r.offset, s.readable r, regValue s r)

/-! ## The statements -/

/-- Settles O13: a register read faults by the group's VALID bit, a TMEM read by TILES_VALID. -/
theorem invalidMemberReadFaults : Obligations.InvalidMemberReadFaults := by
  unfold Obligations.InvalidMemberReadFaults
  constructor
  · intro s r g rest hp hg hv
    exact step_rd_error hp (by rw [hostRead_mapped (regAt_word r), readReg_invalid hg (by simpa using hv)])
  · intro s a rest hp ha hv
    rw [step_cons hp, hostAct, hostReadTmem_invalid (s := s.withPending rest) ha hv]
    rfl

/-- Settles O9: the read of an unmapped word or of CMD, the write nobody takes, and the frame of every host read. -/
theorem unmappedAndReadOnly : Obligations.UnmappedAndReadOnly := by
  unfold Obligations.UnmappedAndReadOnly
  intro s o rest
  refine ⟨fun hp ho => ?_, fun v hp hro => ?_, fun a t ha hp hstep => ?_⟩
  · obtain ho | ho := ho
    · exact step_rd_ok hp (hostRead_unmapped ho)
    · exact step_rd_readable hp ho rfl
  · cases ho : regAt o with
    | none => exact step_wr_unmapped hp ho
    | some r => exact (step_wr_mapped hp ho).trans (writeReg_readOnly (hro r ho))
  · rw [step_cons hp] at hstep
    exact hostAct_read_next ha hstep

/-- Settles O8: the write puts the word into the ARG register, and the read after it finds it there. -/
theorem argReadsBack : Obligations.ArgReadsBack := by
  unfold Obligations.ArgReadsBack
  intro s o v rest hp ho
  obtain ⟨r, hr, harg⟩ : ∃ r, regAt o = some r ∧ (r = .arg0 ∨ r = .arg1 ∨ r = .arg2) := by
    obtain rfl | rfl | rfl := ho
    · exact ⟨.arg0, rfl, by simp⟩
    · exact ⟨.arg1, rfl, by simp⟩
    · exact ⟨.arg2, rfl, by simp⟩
  obtain ⟨t, hwrite, hvalue, hreadable, hpending, hreads⟩ := writeReg_arg (v := v) (s := s.withPending (.rd o :: rest)) harg
  refine ⟨t, _, (step_wr_mapped hp hr).trans hwrite, step_rd_readable hpending hr hreadable, ?_, rfl⟩
  simp [hvalue, hreads]

/-- Settles O10: the word of a register by the map's own lemma, and a mapped word by the entries' offsets. -/
theorem registerOffsets : Obligations.RegisterOffsets := by
  unfold Obligations.RegisterOffsets
  exact ⟨fun r => ⟨regAt_word r, (offset_of_regAt (regAt_word r)).symm⟩, fun _ _ => offset_of_regAt⟩

/-- Settles O14: the table is `regEntry` of the stored registers, so its reads are reads of readable registers. -/
theorem readableRegisterReads : Obligations.ReadableRegisterReads := by
  unfold Obligations.ReadableRegisterReads
  constructor
  · intro s rest e he hvalid hp
    change e ∈ storedRegs.map s.regEntry at he
    obtain ⟨r, -, rfl⟩ := List.mem_map.1 he
    exact step_rd_readable hp (regAt_word r) hvalid
  · intro s r rest hp hvalid
    exact step_rd_readable hp (regAt_word r) (State.readable_iff.2 hvalid)

/-- Settles O16: every field is read off the bits of STATUS. -/
theorem statusLayout : Obligations.StatusLayout := by
  unfold Obligations.StatusLayout
  intro s
  refine ⟨?_, State.statusWord_zero (by omega) (by omega), ?_, ?_, ?_, ?_, State.statusWord_zero (by omega) (by omega)⟩
  · rw [State.statusWord_err]
    cases s.err <;> rfl
  all_goals
    rw [State.statusWord_getLsbD]
    simp

end Sys2Proof.Machine
end

section
/-! PROOFS. The invariant of the machine is kept (R60, R64, R102, R109, R140, R147, R175, R201, R207). First what each named update
of the state keeps of it, then what each command puts into its result group, then the commands, the host's accesses and the step. -/

namespace Sys2Proof.Machine

variable {s t : State} {bs : List Byte}

/-! ## The fields each part of the invariant speaks of -/

theorem MemoryInv.congr (h : MemoryInv s) (hin : t.inMem = s.inMem) (htmem : t.tmem = s.tmem) : MemoryInv t where
  inWf := hin ▸ h.inWf
  inRange := hin ▸ h.inRange
  tmemWf := htmem ▸ h.tmemWf
  tmemRange := htmem ▸ h.tmemRange

theorem ErrorInv.congr (h : ErrorInv s) (herr : t.err = s.err) (hseg : t.errSeg = s.errSeg)
    (hexpected : t.errExpected = s.errExpected) (hactual : t.errActual = s.errActual) : ErrorInv t where
  neverNotFound := herr ▸ h.neverNotFound
  noDetail := by rw [herr, hseg, hexpected, hactual]; exact h.noDetail
  detail := by rw [herr, hseg, hexpected, hactual]; exact h.detail

theorem TilesInv.congr (h : TilesInv s) (hcount : t.tileCount = s.tileCount) (htmem : t.tmem = s.tmem) : TilesInv t where
  count := hcount ▸ h.count
  record := by rw [hcount, htmem]; exact h.record

/-- The invariant says nothing of ARG0 to ARG2, of PROBE_RESULT or of the host's own record. -/
theorem State.Inv.congr (h : s.Inv) (same : t = { s with
    arg0 := t.arg0, arg1 := t.arg1, arg2 := t.arg2, probeResult := t.probeResult, pending := t.pending, reads := t.reads }) :
    t.Inv := by
  rw [same]
  exact {
    memory := h.memory.congr rfl rfl
    error := h.error.congr rfl rfl rfl rfl
    rom := h.rom
    tr := h.tr
    tiles := fun hv => (h.tiles hv).congr rfl rfl
    pal := h.pal }

/-! ## What each update of the state keeps -/

/-- An error that a command may raise keeps the invariant: a group is valid after it only if it was before (R204). -/
theorem State.Inv.raise {e : ErrRecord} {g : Option Group} (h : s.Inv) (he : e.Ok) : (s.raise e g).Inv where
  memory := h.memory.congr rfl rfl
  error := ⟨he.notNotFound, he.noDetail, he.detail⟩
  rom hv := h.rom (Bool.and_eq_true_iff.1 hv).1
  tr hv := h.tr (Bool.and_eq_true_iff.1 hv).1
  tiles hv := (h.tiles (Bool.and_eq_true_iff.1 hv).1).congr rfl rfl
  pal hv := h.pal (Bool.and_eq_true_iff.1 hv).1

theorem State.Inv.finish (h : s.Inv) : s.finish.Inv where
  memory := h.memory.congr rfl rfl
  error := ⟨by simp, fun _ => ⟨rfl, rfl, rfl⟩, by simp⟩
  rom := h.rom
  tr := h.tr
  tiles hv := (h.tiles hv).congr rfl rfl
  pal := h.pal

theorem State.Inv.withRom {r : RomGroup} (h : s.Inv) (hr : RomInv r) : (s.withRom r).Inv where
  memory := h.memory.congr rfl rfl
  error := h.error.congr rfl rfl rfl rfl
  rom _ := hr
  tr := h.tr
  tiles hv := (h.tiles hv).congr rfl rfl
  pal := h.pal

theorem State.Inv.withTr {r : TrGroup} (h : s.Inv) (hr : TrInv r) : (s.withTr r).Inv where
  memory := h.memory.congr rfl rfl
  error := h.error.congr rfl rfl rfl rfl
  rom := h.rom
  tr _ := hr
  tiles hv := (h.tiles hv).congr rfl rfl
  pal := h.pal

theorem State.Inv.withTiles {n : Word} {m : Mem} (h : s.Inv) (hwf : m.wf) (hrange : ∀ c ∈ m, c.1 < Config.tmemSize)
    (htiles : TilesInv (s.withTiles n m)) : (s.withTiles n m).Inv where
  memory := ⟨h.memory.inWf, h.memory.inRange, hwf, hrange⟩
  error := h.error.congr rfl rfl rfl rfl
  rom := h.rom
  tr := h.tr
  tiles _ := htiles
  pal := h.pal

theorem State.Inv.withPal {p : PalGroup} (h : s.Inv) (hp : PalInv p) : (s.withPal p).Inv where
  memory := h.memory.congr rfl rfl
  error := h.error.congr rfl rfl rfl rfl
  rom := h.rom
  tr := h.tr
  tiles hv := (h.tiles hv).congr rfl rfl
  pal _ := hp

/-- A byte write inside IN keeps the canonical form and the space of IN (R60, R61). -/
theorem State.Inv.withIn_write {a : Nat} {v : Byte} (h : s.Inv) (ha : a < Config.inSize) :
    (s.withIn (s.inMem.write a v)).Inv where
  memory := by
    refine ⟨Mem.write_wf h.memory.inWf a v, fun c hc => ?_, h.memory.tmemWf, h.memory.tmemRange⟩
    obtain rfl | hc := Mem.mem_write hc
    · exact ha
    · exact h.memory.inRange c hc
  error := h.error.congr rfl rfl rfl rfl
  rom := h.rom
  tr := h.tr
  tiles hv := (h.tiles hv).congr rfl rfl
  pal := h.pal

/-- The reset state has no byte written, no error and no valid group (R220). -/
theorem State.reset_inv : State.reset.Inv where
  memory := ⟨State.reset_inMem_wf, by simp [State.reset], State.reset_tmem_wf, by simp [State.reset]⟩
  error := ⟨by decide, fun _ => ⟨rfl, rfl, rfl⟩, by decide⟩
  rom hv := by cases hv
  tr hv := by cases hv
  tiles hv := by cases hv
  pal hv := by cases hv

theorem State.afterReset_inv : s.afterReset.Inv := State.reset_inv.congr rfl

/-! ## What each command puts into its result group -/

/-- PARSE stores one container that lies inside IN (R100, R102, R109). -/
theorem romInv_romOf {base : Nat} (hmagic : magicOk (byteAt bs) = true)
    (hfits : base + totalSize (byteAt bs) ≤ Config.inSize) : RomInv (romOf base bs) := by
  obtain ⟨emagic, etrainer, eprg, echr, etotal, -⟩ :=
    derived_congr (H := (romOf base bs).header) (K := byteAt bs) fun i hi => header_romOf base bs (by omega)
  obtain ⟨ltrainer, lprg, lchr⟩ := sizes_lt (byteAt bs)
  exact {
    magic := emagic.trans hmagic
    trnLen := (regWord_toNat (by omega)).trans etrainer.symm
    prgLen := (regWord_toNat (by omega)).trans eprg.symm
    chrLen := (regWord_toNat (by omega)).trans echr.symm
    layout := by
      rw [etotal, etrainer, eprg]
      exact ⟨base, hfits, rfl, rfl, rfl⟩ }

/-- A TR group whose grid is decode16 of its raw bytes (R142, R144). -/
theorem trInv_trOf {index : Word} {v : Nat → Nat → Nat}
    (hv : ∀ y x, y < 8 → x < 8 → v y x = (decodePixel (byteAt bs) y x).toNat) : TrInv (trOf index bs v) := by
  have small : ∀ y, y < 8 → ∀ x, x < 8 → v y x < 4 := fun y hy x hx => hv y x hy hx ▸ (decodePixel _ y x).isLt
  refine ⟨fun y x hy hx => ?_, fun y hy => ?_⟩
  · rw [pixel_trOf index bs (small y hy) hy hx, hv y x hy hx, BitVec.ofNat_toNat, BitVec.setWidth_eq]
    exact (decodePixel_congr x (raw_trOf index bs v (by omega)) (raw_trOf index bs v (by omega))).symm
  · rw [row_trOf index bs v hy]
    exact packRow_lt (small y hy)

/-- The pixel bytes that LOAD_TILE reads from a held tile are decode16 of the raw bytes it reads with them (R64). -/
theorem recordPixels_of_holdsTile {m : Mem} {k : Nat} {B : Nat → Byte} (h : HoldsTile m k B)
    (hread : readBytes m (80 * k) 80 = .ok bs) (y x : Nat) (hy : y < 8) (hx : x < 8) :
    (byteAt bs (16 + 8 * y + x)).toNat = (decodePixel (byteAt bs) y x).toNat := by
  obtain ⟨cs, hcs, raw, pixels⟩ := readBytes_of_holdsTile h
  obtain rfl : cs = bs := Except.ok.inj (hcs.symm.trans hread)
  rw [pixels y x hy hx, decodePixel_congr x (raw y (by omega)) (raw (y + 8) (by omega)), BitVec.toNat_setWidth_of_le (by decide)]

/-- The records of an admitted buffer fit in TMEM (R147). -/
theorem records_le_tmemTiles (h : opBase s + opAvail s ≤ Config.inSize) : opAvail s / 16 ≤ Config.tmemTiles :=
  Nat.div_le_div_right (by omega)

theorem palInv_resolvePalette (i : Int) (transparent : Bool) : PalInv (resolvePalette i transparent) := by
  have opaque_lt (n : Fin 4) : (opaqueSlot i n).toNat < 2 ^ 24 := by
    unfold opaqueSlot opaqueWord
    split <;> (rw [BitVec.toNat_setWidth_of_le (by decide)]; exact BitVec.isLt _)
  refine ⟨?_, opaque_lt 1, opaque_lt 2, opaque_lt 3⟩
  cases transparent
  · exact .inr (opaque_lt 0)
  · exact .inl rfl

/-! ## The commands, the host's accesses and the step -/

theorem execParse_inv (h : s.Inv) (ht : execParse s = .next t) : t.Inv := by
  obtain ⟨e, he, rfl⟩ | ⟨bs, hregion, -, -, hmagic, hfits, rfl⟩ := execParse_cases ht
  · exact h.raise he
  · exact (h.withRom (romInv_romOf hmagic (by omega))).finish

theorem execProbe_inv (h : s.Inv) (ht : execProbe s = .next t) : t.Inv := by
  obtain ⟨r, rfl⟩ := execProbe_cases ht
  exact (h.congr (t := s.withProbe r) rfl).finish

theorem execDecodeTile_inv (h : s.Inv) (ht : execDecodeTile s = .next t) : t.Inv := by
  obtain rfl | ⟨bs, -, -, -, rfl⟩ := execDecodeTile_cases ht
  · exact h.raise argumentError_ok
  · exact (h.withTr (trInv_trOf fun _ _ _ _ => rfl)).finish

theorem execExtractTiles_inv (h : s.Inv) (ht : execExtractTiles s = .next t) : t.Inv := by
  obtain rfl | ⟨m, hregion, hm, rfl⟩ := execExtractTiles_cases ht
  · exact h.raise argumentError_ok
  · obtain ⟨tiles, -, wf, entries⟩ := extractRecords_ok hm
    have fits := records_le_tmemTiles hregion
    refine (h.withTiles (wf h.memory.tmemWf) (fun c hc => ?_) ⟨?_, fun k hk => ?_⟩).finish
    · obtain hc | hc := entries c hc
      · exact Nat.lt_of_lt_of_le hc (Nat.mul_le_mul_left 80 fits)
      · exact h.memory.tmemRange c hc
    · rwa [State.withTiles_tileCount, tileCount_toNat]
    · rw [State.withTiles_tileCount, tileCount_toNat] at hk
      obtain ⟨bs, -, held⟩ := tiles k hk
      exact ⟨_, held⟩

theorem execLoadTile_inv (h : s.Inv) (ht : execLoadTile s = .next t) : t.Inv := by
  obtain rfl | ⟨bs, hvalid, hk, hread, rfl⟩ := execLoadTile_cases ht
  · exact h.raise argumentError_ok
  · obtain ⟨B, held⟩ := (h.tiles hvalid).record _ hk
    exact (h.withTr (trInv_trOf (recordPixels_of_holdsTile held hread))).finish

theorem execResolve_inv (h : s.Inv) (ht : execResolve s = .next t) : t.Inv := by
  cases (execResolve_eq s).symm.trans ht
  exact (h.withPal (palInv_resolvePalette _ _)).finish

theorem exec_inv (i : Instr) (h : s.Inv) (ht : exec i s = .next t) : t.Inv :=
  match i with
  | .parse => execParse_inv h ht
  | .probe => execProbe_inv h ht
  | .decodeTile => execDecodeTile_inv h ht
  | .extractTiles => execExtractTiles_inv h ht
  | .loadTile => execLoadTile_inv h ht
  | .resolve => execResolve_inv h ht

theorem hostAct_inv {a : HostAction} (h : s.Inv) (ht : hostAct a s = .next t) : t.Inv := by
  obtain ⟨i, hi⟩ | rfl | ⟨v, rfl⟩ | ⟨v, rfl⟩ | ⟨v, rfl⟩ | ⟨x, v, hx, rfl⟩ | ⟨v, rfl⟩ | rfl | rfl := hostAct_cases ht
  · exact exec_inv i h hi
  · exact h.raise illegalCommand_ok
  · exact h.congr rfl
  · exact h.congr rfl
  · exact h.congr rfl
  · exact h.withIn_write hx
  · exact h.congr rfl
  · exact State.afterReset_inv
  · exact h

theorem step_inv (h : s.Inv) (ht : step s = .next t) : t.Inv := by
  cases hp : s.pending with
  | nil =>
    simp only [step, hostStep, hp, Host.Outcome.next.injEq] at ht
    exact ht ▸ h
  | cons a rest =>
    rw [step_cons hp] at ht
    exact hostAct_inv (h.congr (t := s.withPending rest) rfl) ht

/-- Settles O44: an idle step changes nothing, and each next state of a host access is an update that keeps the invariant. -/
theorem stepKeepsInvariant : Obligations.StepKeepsInvariant := by
  unfold Obligations.StepKeepsInvariant
  exact fun _ _ => step_inv

end Sys2Proof.Machine
end

section
/-! PROOFS. The host's byte accesses to IN and TMEM (R61 to R65, R71, R78) and the segments of R77. First one rule per access, then
O7, O11, O12, O15 and O21 from these rules. -/

namespace Sys2Proof.Machine

variable {s t : State} {rest : List HostAction}

/-! ## Host accesses to IN -/

theorem hostWriteIn_inside {a : Nat} {v : Byte} (h : a < Config.inSize) :
    hostWriteIn a v s = s.withIn (s.inMem.write a v) := if_pos ((withinIn_iff _).2 h)

theorem not_withinIn {a : Nat} (h : Config.inSize ≤ a) : ¬withinIn (a + 1) = true := by
  rw [withinIn_iff]
  omega

theorem hostWriteIn_outside {a : Nat} {v : Byte} (h : Config.inSize ≤ a) : hostWriteIn a v s = s := if_neg (not_withinIn h)

/-- Wherever the address lies, a host write to IN is an update of IN alone, at that address alone (R61, R62, R71). -/
theorem hostWriteIn_frame (a : Nat) (v : Byte) :
    ∃ m, hostWriteIn a v s = s.withIn m ∧ ∀ b, b ≠ a → m.read b = s.inMem.read b := by
  obtain h | h := Nat.lt_or_ge a Config.inSize
  · exact ⟨_, hostWriteIn_inside h, fun b hb => Mem.read_write_other _ _ hb⟩
  · exact ⟨s.inMem, hostWriteIn_outside h, fun _ _ => rfl⟩

theorem hostReadIn_written {a : Nat} {v : Byte} (h : a < Config.inSize) (hv : s.inMem.read a = some v) :
    hostReadIn a s = .ok v := by
  simp [hostReadIn, (withinIn_iff (a + 1)).2 h, hv]

theorem hostReadIn_outside {a : Nat} (h : Config.inSize ≤ a) : hostReadIn a s = .ok 0 := if_neg (not_withinIn h)

theorem step_wrbIn {a : Word} {v : Byte} (hp : s.pending = .wrbIn a v :: rest) :
    step s = .next (hostWriteIn a.toNat v (s.withPending rest)) := step_cons hp

theorem step_rdbIn_ok {a : Word} {v : Byte} (hp : s.pending = .rdbIn a :: rest) (h : hostReadIn a.toNat (s.withPending rest) = .ok v) :
    step s = .next { s with pending := rest, reads := .byte v :: s.reads } := by
  rw [step_cons hp, hostAct, h]
  rfl

/-! ## Host accesses to TMEM -/

theorem hostReadTmem_outside {a : Nat} (h : Config.tmemSize ≤ a) : hostReadTmem a s = .ok 0 := by
  refine if_neg ?_
  rw [withinTmem_iff]
  omega

section ValidTiles

variable {a : Nat} (ha : a < Config.tmemSize) (hvalid : s.tilesValid = true)
include ha hvalid

theorem hostReadTmem_tile {v : Byte} (hcount : a < 80 * s.tileCount.toNat) (hv : s.tmem.read a = some v) :
    hostReadTmem a s = .ok v := by
  simp [hostReadTmem, (withinTmem_iff (a + 1)).2 ha, hvalid, hcount, hv]

theorem hostReadTmem_stale (hcount : 80 * s.tileCount.toNat ≤ a) : hostReadTmem a s = .error (.staleTmem a) := by
  simp [hostReadTmem, (withinTmem_iff (a + 1)).2 ha, hvalid, Nat.not_lt.2 hcount]

end ValidTiles

theorem step_rdbTmem_ok {a : Word} {v : Byte} (hp : s.pending = .rdbTmem a :: rest)
    (h : hostReadTmem a.toNat (s.withPending rest) = .ok v) :
    step s = .next { s with pending := rest, reads := .byte v :: s.reads } := by
  rw [step_cons hp, hostAct, h]
  rfl

theorem step_rdbTmem_error {a : Word} {f : Fault} (hp : s.pending = .rdbTmem a :: rest)
    (h : hostReadTmem a.toNat (s.withPending rest) = .error f) : step s = .fault f := by
  rw [step_cons hp, hostAct, h]
  rfl

/-! ## A read sees nothing of the host's own record -/

@[simp] theorem State.withRead_groupValid (v : ReadValue) (g : Group) : (s.withRead v).groupValid g = s.groupValid g := by
  cases g <;> rfl

@[simp] theorem State.withRead_regValue (v : ReadValue) (r : Reg) : regValue (s.withRead v) r = regValue s r := by
  cases r <;> rfl

theorem hostRead_hostRecord (o : BitVec 10) (v : ReadValue) (l : List HostAction) :
    hostRead o ((s.withRead v).withPending l) = hostRead o s := by
  simp only [hostRead, readReg, State.withPending_groupValid, State.withPending_regValue, State.withRead_groupValid,
    State.withRead_regValue]

/-- What a host read answers is fixed by the access and by NXB's own state: it is the same after a read and with other accesses to
come (R71, log entries 4 and 5). -/
theorem hostAct_read_again {a : HostAction} (ha : (∃ o, a = .rd o) ∨ (∃ x, a = .rdbIn x) ∨ ∃ x, a = .rdbTmem x) :
    ∃ answer, hostAct a s = readOutcome answer s ∧
      ∀ v l, hostAct a ((s.withRead v).withPending l) = readOutcome answer ((s.withRead v).withPending l) := by
  obtain ⟨o, rfl⟩ | ⟨x, rfl⟩ | ⟨x, rfl⟩ := ha
  · exact ⟨_, rfl, fun v l => by rw [hostAct, hostRead_hostRecord]⟩
  · exact ⟨_, rfl, fun _ _ => rfl⟩
  · exact ⟨_, rfl, fun _ _ => rfl⟩

/-- A host read that completes records its value and nothing else, and made again it completes with the same value (R71). -/
theorem step_read_twice {a : HostAction} (ha : (∃ o, a = .rd o) ∨ (∃ x, a = .rdbIn x) ∨ ∃ x, a = .rdbTmem x)
    (hp : s.pending = a :: rest) (ht : step s = .next t) :
    ∃ v, t = { s with pending := rest, reads := v :: s.reads } ∧
      ∀ again, rest = a :: again → step t = .next { s with pending := again, reads := v :: v :: s.reads } := by
  obtain ⟨answer, first, second⟩ := hostAct_read_again (s := s.withPending rest) ha
  rw [step_cons hp, first] at ht
  cases answer with
  | error f => cases ht
  | ok v =>
    cases ht
    refine ⟨v, rfl, fun again hrest => ?_⟩
    rw [step_cons (a := a) (rest := again) hrest, second]
    rfl

/-! ## The commands leave IN alone -/

theorem exec_inMem {i : Instr} (h : exec i s = .next t) : t.inMem = s.inMem := by
  cases i with
  | parse => rw [exec_parse_frame h]
  | probe => rw [exec_probe_frame h]
  | decodeTile => rw [exec_trCommand_frame (.inl h)]
  | extractTiles => rw [exec_extractTiles_frame h]
  | loadTile => rw [exec_trCommand_frame (.inr h)]
  | resolve => rw [exec_resolve_frame h]

/-! ## The statements -/

/-- Settles O7: the four writes through the register map, the IN write by its frame, and the reads by `step_read_twice`. -/
theorem hostAccessSideEffects : Obligations.HostAccessSideEffects := by
  unfold Obligations.HostAccessSideEffects
  intro s a rest hp
  refine ⟨?_, ?_, ?_, ?_, ?_, fun t ha ht => step_read_twice ha hp ht⟩
  · rintro w rfl
    exact step_wr_mapped hp (regAt_word .cmd)
  · rintro v rfl
    exact step_wr_mapped hp (regAt_word .arg0)
  · rintro v rfl
    exact step_wr_mapped hp (regAt_word .arg1)
  · rintro v rfl
    exact step_wr_mapped hp (regAt_word .arg2)
  · rintro x v rfl
    obtain ⟨m, hm, other⟩ := hostWriteIn_frame (s := s.withPending rest) x.toNat v
    exact ⟨m, by rw [step_wrbIn hp, hm]; rfl, other⟩

/-- Settles O11: the byte written reads back, the byte read is handed over, and every command's frame leaves IN out. -/
theorem inReadsBack : Obligations.InReadsBack := by
  unfold Obligations.InReadsBack
  refine ⟨fun s a v rest ha hp => ?_, fun s a v rest ha hp hv => ?_, fun i s t => exec_inMem⟩
  · refine ⟨_, (step_wrbIn hp).trans (by rw [hostWriteIn_inside ha]), ?_, fun b hb => ?_⟩
    · exact Mem.read_write_same _ _ _
    · exact Mem.read_write_other _ _ hb
  · exact step_rdbIn_ok hp (hostReadIn_written ha hv)

/-- Settles O12: a read out of range answers 0, and a write out of range or to TMEM is no update. -/
theorem outOfRangeBytes : Obligations.OutOfRangeBytes := by
  unfold Obligations.OutOfRangeBytes
  intro s a v rest
  refine ⟨fun ha hp => ?_, fun ha hp => ?_, fun ha hp => ?_, fun hp => ?_⟩
  · exact step_rdbIn_ok hp (hostReadIn_outside ha)
  · rw [step_wrbIn hp, hostWriteIn_outside ha]
    rfl
  · exact step_rdbTmem_ok hp (hostReadTmem_outside ha)
  · exact step_cons hp

/-- Settles O15: below 80 × TILE_COUNT the read hands the byte over, from there on it is stale. -/
theorem tmemHostRead : Obligations.TmemHostRead := by
  unfold Obligations.TmemHostRead
  intro s a rest hp ha hvalid
  refine ⟨fun v hcount hv => ?_, fun hcount => ?_⟩
  · exact step_rdbTmem_ok hp (hostReadTmem_tile ha hvalid hcount hv)
  · exact step_rdbTmem_error hp (hostReadTmem_stale ha hvalid hcount)

/-- Settles O21: reading a segment is reading its descriptor's bytes of IN. -/
theorem segmentsReferToIn : Obligations.SegmentsReferToIn := by
  unfold Obligations.SegmentsReferToIn
  exact fun s bs => ⟨readBytes_ok_iff, readBytes_ok_iff, readBytes_ok_iff⟩

end Sys2Proof.Machine
end

section
/-! PROOFS. No command's outcome depends on an IN byte outside its region (R63): with IN replaced by a content that agrees on
ARG0 .. ARG0+ARG1-1, each command answers the same outcome but for IN itself. O40 from that equation. -/

namespace Sys2Proof.Machine

section Region

/-- The same outcome with IN replaced in its next state. -/
def outcomeWithIn (m : Mem) : Host.Outcome State Fault Refusal → Host.Outcome State Fault Refusal
  | .next t => .next (t.withIn m)
  | .fault f => .fault f
  | .refused r => .refused r

/-- `m` and IN hold the same bytes in the region ARG0 .. ARG0+ARG1-1. -/
def AgreesOnRegion (s : State) (m : Mem) : Prop :=
  ∀ a, opBase s ≤ a → a < opBase s + opAvail s → m.read a = s.inMem.read a

variable {s : State} {m : Mem}

theorem readBytes_of_agrees {n : Nat} (h : AgreesOnRegion s m) (hn : n ≤ opAvail s) :
    readBytes m (opBase s) n = readBytes s.inMem (opBase s) n :=
  readBytes_congr fun i hi => h _ (by omega) (by omega)

theorem extractRecords_of_agrees (h : AgreesOnRegion s m) (tmem : Mem) :
    extractRecords m (opBase s) tmem (opAvail s / 16) = extractRecords s.inMem (opBase s) tmem (opAvail s / 16) :=
  extractRecords_congr fun i hi => h _ (by omega) (by omega)

theorem four_le_probeMinLen : 4 ≤ Config.probeMinLen := by
  unfold Config.probeMinLen
  split <;> decide

/-- An outcome that one read decides is the same but for IN where the read answers the same. -/
theorem outcomeWithIn_of_read {α : Type} {o o' : Host.Outcome State Fault Refusal} {read read' : Except Nat α}
    {next : α → State} {fault : Nat → Fault} (same : read' = read)
    (h : (∀ bs, read = .ok bs → o = .next (next bs)) ∧ ∀ a, read = .error a → o = .fault (fault a))
    (h' : (∀ bs, read' = .ok bs → o' = .next ((next bs).withIn m)) ∧ ∀ a, read' = .error a → o' = .fault (fault a)) :
    o' = outcomeWithIn m o := by
  subst same
  cases read' with
  | ok bs => rw [h.1 bs rfl, h'.1 bs rfl, outcomeWithIn]
  | error a => rw [h.2 a rfl, h'.2 a rfl, outcomeWithIn]

theorem execParse_withIn (h : AgreesOnRegion s m) : execParse (s.withIn m) = outcomeWithIn m (execParse s) := by
  obtain outside | inside := Nat.lt_or_ge Config.inSize (opBase s + opAvail s)
  · rw [execParse_outside outside, execParse_outside (s := s.withIn m) outside]
    rfl
  obtain short | long := Nat.lt_or_ge (opAvail s) 16
  · rw [execParse_short inside short, execParse_short (s := s.withIn m) inside short]
    rfl
  have same := readBytes_of_agrees h long
  cases hb : readBytes s.inMem (opBase s) 16 with
  | error a =>
    rw [execParse_unwritten inside long hb, execParse_unwritten (s := s.withIn m) inside long (same.trans hb)]
    rfl
  | ok bs =>
    obtain ⟨error, done⟩ := execParse_header inside long hb
    obtain ⟨error', done'⟩ := execParse_header (s := s.withIn m) inside long (same.trans hb)
    cases he : containerError (byteAt bs) (opAvail s) with
    | some e =>
      rw [error e he, error' e he]
      rfl
    | none =>
      rw [done he, done' he]
      rfl

theorem execProbe_withIn (h : AgreesOnRegion s m) : execProbe (s.withIn m) = outcomeWithIn m (execProbe s) := by
  by_cases reads : opBase s + opAvail s ≤ Config.inSize ∧ opExtOk s = true ∧ Config.probeMinLen ≤ opAvail s
  · obtain ⟨inside, ext, long⟩ := reads
    exact outcomeWithIn_of_read (readBytes_of_agrees h (Nat.le_trans four_le_probeMinLen long)) (execProbe_read inside ext long)
      (execProbe_read (s := s.withIn m) inside ext long)
  · rw [execProbe_no reads, execProbe_no (s := s.withIn m) reads]
    rfl

theorem execDecodeTile_withIn (h : AgreesOnRegion s m) :
    execDecodeTile (s.withIn m) = outcomeWithIn m (execDecodeTile s) := by
  by_cases bad : Config.inSize < opBase s + opAvail s ∨ opAvail s < 16
  · rw [execDecodeTile_bad bad, execDecodeTile_bad (s := s.withIn m) bad]
    rfl
  · obtain ⟨inside, long⟩ : opBase s + opAvail s ≤ Config.inSize ∧ 16 ≤ opAvail s := by omega
    exact outcomeWithIn_of_read (readBytes_of_agrees h long) (execDecodeTile_read inside long)
      (execDecodeTile_read (s := s.withIn m) inside long)

theorem execExtractTiles_withIn (h : AgreesOnRegion s m) :
    execExtractTiles (s.withIn m) = outcomeWithIn m (execExtractTiles s) := by
  obtain outside | inside := Nat.lt_or_ge Config.inSize (opBase s + opAvail s)
  · rw [execExtractTiles_outside outside, execExtractTiles_outside (s := s.withIn m) outside]
    rfl
  · exact outcomeWithIn_of_read (extractRecords_of_agrees h s.tmem) (execExtractTiles_read inside)
      (execExtractTiles_read (s := s.withIn m) inside)

/-- LOAD_TILE reads no byte of IN at all (R144). -/
theorem execLoadTile_withIn (m : Mem) : execLoadTile (s.withIn m) = outcomeWithIn m (execLoadTile s) := by
  by_cases bad : s.tilesValid = false ∨ s.tileCount.toNat ≤ opTile s
  · rw [execLoadTile_bad bad, execLoadTile_bad (s := s.withIn m) bad]
    rfl
  · obtain ⟨hvalid, hk⟩ : s.tilesValid = true ∧ opTile s < s.tileCount.toNat := by simpa using bad
    exact outcomeWithIn_of_read rfl (execLoadTile_read hvalid hk) (execLoadTile_read (s := s.withIn m) hvalid hk)

/-- RESOLVE reads no byte of IN at all (R171). -/
theorem execResolve_withIn (m : Mem) : execResolve (s.withIn m) = outcomeWithIn m (execResolve s) := rfl

theorem exec_withIn (i : Instr) (h : AgreesOnRegion s m) : exec i (s.withIn m) = outcomeWithIn m (exec i s) :=
  match i with
  | .parse => execParse_withIn h
  | .probe => execProbe_withIn h
  | .decodeTile => execDecodeTile_withIn h
  | .extractTiles => execExtractTiles_withIn h
  | .loadTile => execLoadTile_withIn m
  | .resolve => execResolve_withIn m

end Region

/-- Settles O40: the outcome with the other IN is the old outcome with IN replaced, a next state and a fault alike. -/
theorem bytesOutsideRegionDoNotMatter : Obligations.BytesOutsideRegionDoNotMatter := by
  unfold Obligations.BytesOutsideRegionDoNotMatter
  intro i s m h
  have same : exec i { s with inMem := m } = outcomeWithIn m (exec i s) := exec_withIn i h
  refine ⟨fun t ht => ?_, fun f hf => ?_⟩
  · rw [same, ht]
    rfl
  · rw [same, hf]
    rfl

end Sys2Proof.Machine
end

section
/-! PROOFS. The decoder and the encoder of CMD words (R80, R81, R83, R85), a CMD write (R84, R205) and the pseudo-instructions
(R87). First when a word decodes to a command and when to none, then what a CMD write does in a step, then how a run takes the
register writes of a program one by one; O3, O2, O1, O4 and O17 from these rules. -/

namespace Sys2Proof

variable {w : Word} {i j : Instr} {op : Byte}

/-! ## The two directions of the opcode map -/

theorem instrOfOpcode_opField_encode (i : Instr) : instrOfOpcode (opField (encode i)) = some i := by
  cases i <;> rfl

theorem rsvField_encode (i : Instr) : rsvField (encode i) = 0 := by
  cases i <;> rfl

theorem instrOfOpcode_eq_some (h : instrOfOpcode op = some i) : op = opField (encode i) := by
  unfold instrOfOpcode at h
  repeat' split at h
  all_goals cases h <;> assumption

/-- The legal opcodes of R83 are the opcodes of the six commands of R81. -/
theorem mem_legalOpcodes_iff : op ∈ legalOpcodes ↔ ∃ i, instrOfOpcode op = some i := by
  constructor
  · intro h
    have opcodes : legalOpcodes = [Instr.parse, .probe, .decodeTile, .extractTiles, .loadTile, .resolve].map
        fun i => opField (encode i) := rfl
    rw [opcodes, List.mem_map] at h
    obtain ⟨i, -, rfl⟩ := h
    exact ⟨i, instrOfOpcode_opField_encode i⟩
  · rintro ⟨i, h⟩
    obtain rfl := instrOfOpcode_eq_some h
    cases i <;> decide

theorem instrOfOpcode_eq_none_iff : instrOfOpcode op = none ↔ op ∉ legalOpcodes := by
  rw [Option.eq_none_iff_forall_ne_some, mem_legalOpcodes_iff, not_exists]

/-! ## Decode and encode -/

theorem decode_encode (i : Instr) : decode (encode i) = some i := by
  rw [decode_eq, if_pos (rsvField_encode i), instrOfOpcode_opField_encode]

/-- A word that decodes has both fields of its command's word, so it is that word (R80, R85). -/
theorem eq_encode_of_decode (h : decode w = some i) : w = encode i := by
  rw [decode_eq] at h
  split at h
  · rename_i hrsv
    exact cmdWord_ext (hrsv.trans (rsvField_encode i).symm) (instrOfOpcode_eq_some h)
  · cases h

theorem encode_injective (h : encode j = encode i) : j = i := by
  simpa [decode_encode] using congrArg decode h

/-- R83: a word is illegal by its reserved field or by its opcode. -/
theorem decode_eq_none_iff : decode w = none ↔ rsvField w ≠ 0 ∨ opField w ∉ legalOpcodes := by
  rw [decode_eq, ite_eq_right_iff, instrOfOpcode_eq_none_iff, Decidable.imp_iff_not_or]

end Sys2Proof

namespace Sys2Proof.Machine

variable {s t : State} {i : Instr} {r : Reg} {v w : Word} {rest : List HostAction} {k : Nat}

/-! ## A CMD write -/

theorem issueCommand_legal (h : decode w = some i) : issueCommand w s = exec i s := by
  simp [issueCommand, h]

theorem issueCommand_illegal (h : decode w = none) : issueCommand w s = .next (s.raise illegalCommand none) := by
  simp [issueCommand, h]

theorem step_cmd (hp : s.pending = .wr Reg.cmd.word w :: rest) : step s = issueCommand w (s.withPending rest) :=
  step_wr_mapped hp (regAt_word .cmd)

/-- An error that no result group answers for leaves the four VALID bits alone (R204, R205). -/
theorem State.raise_noGroup (e : ErrRecord) : s.raise e none = { s with
    err := e.code, errSeg := e.seg, errExpected := e.expected, errActual := e.actual } := by
  simp [State.raise]

/-- The host's numbering of a 32-bit word loses nothing. -/
theorem withFetchWord_toNat (w : Word) : s.withFetchWord 32 w.toNat = placeCommand w s := by
  simp [State.withFetchWord, Nat.mod_eq_of_lt w.isLt]

/-! ## Runs of register writes -/

theorem run_one (M : Host.Core) (x : M.State) : M.run 1 x = M.step x := by
  simp only [Host.Core.run]
  cases M.step x <;> rfl

theorem run_succ_of_next {M : Host.Core} {x y : M.State} (h : M.step x = .next y) : M.run (k + 1) x = M.run k y := by
  rw [Host.Core.run, h]

/-- A register write that completes is the first step of a run, and the run goes on from its next state. -/
theorem core_run_wr (h : writeReg r v (s.withPending rest) = .next t) :
    core.run (k + 1) (s.withPending (wrNamed r v :: rest)) = core.run k t :=
  run_succ_of_next ((step_wr_mapped (s := s.withPending (wrNamed r v :: rest)) rfl (regAt_word r)).trans h)

theorem core_run_arg0 : core.run (k + 1) (s.withPending (wrNamed .arg0 v :: rest)) = core.run k ((s.withArg0 v).withPending rest) :=
  core_run_wr rfl

theorem core_run_arg1 : core.run (k + 1) (s.withPending (wrNamed .arg1 v :: rest)) = core.run k ((s.withArg1 v).withPending rest) :=
  core_run_wr rfl

theorem core_run_arg2 : core.run (k + 1) (s.withPending (wrNamed .arg2 v :: rest)) = core.run k ((s.withArg2 v).withPending rest) :=
  core_run_wr rfl

theorem core_run_cmd (h : decode w = some i) :
    core.run 1 (s.withPending (wrNamed .cmd w :: rest)) = exec i (s.withPending rest) := by
  have last : step (s.withPending (wrNamed .cmd w :: rest)) = issueCommand w (s.withPending rest) := step_cmd rfl
  exact (run_one core _).trans (last.trans (issueCommand_legal h))

/-! ## The statements -/

/-- Settles O3: a word decodes exactly when it is a command's word, and no two commands share one. -/
theorem decodeEncodeAgree : Obligations.DecodeEncodeAgree := by
  unfold Obligations.DecodeEncodeAgree
  refine ⟨decode_encode, fun w i => eq_encode_of_decode, fun w => ?_⟩
  cases h : decode w with
  | some i =>
    obtain rfl := eq_encode_of_decode h
    exact .inl ⟨i, rfl, fun j => encode_injective⟩
  | none =>
    refine .inr ⟨rfl, ?_⟩
    rintro i rfl
    rw [decode_encode] at h
    cases h

/-- Settles O2: the two fields decide which words are illegal, and ILLEGAL_COMMAND is an error of no result group. -/
theorem illegalWordsRecordCode5 : Obligations.IllegalWordsRecordCode5 := by
  unfold Obligations.IllegalWordsRecordCode5
  refine fun w => ⟨decode_eq_none_iff, fun h s rest hp => ?_⟩
  rw [step_cmd hp, issueCommand_illegal h, State.raise_noGroup]
  rfl

/-- Settles O1: six words are the commands' own; the other three are illegal by a reserved bit or by opcode 0. -/
theorem specWordsDecode : Obligations.SpecWordsDecode := by
  unfold Obligations.SpecWordsDecode
  have reserved {w : Word} (h : rsvField w ≠ 0) : decode w = none := decode_eq_none_iff.2 (.inl h)
  have undefinedOpcode {w : Word} (h : opField w ∉ legalOpcodes) : decode w = none := decode_eq_none_iff.2 (.inr h)
  exact ⟨decode_encode .parse, decode_encode .probe, decode_encode .decodeTile, decode_encode .extractTiles,
    decode_encode .loadTile, decode_encode .resolve, reserved (by decide), reserved (by decide), undefinedOpcode (by decide)⟩

/-- Settles O4: both steps are a CMD write of a word that decodes, the second of the placed command's own word. -/
theorem stepRunsIssuedCommand : Obligations.StepRunsIssuedCommand := by
  unfold Obligations.StepRunsIssuedCommand
  refine ⟨fun s rest w i hp h => ?_, fun s i => ?_⟩
  · rw [step_cmd hp, issueCommand_legal h]
  · rw [withFetchWord_toNat, step_cmd (s := placeCommand (encode i) s) rfl, issueCommand_legal (decode_encode i)]
    rfl

/-- Settles O17: each run takes the ARG writes one by one and ends in the CMD write of its command's word. -/
theorem pseudoInstructionsRun : Obligations.PseudoInstructionsRun := by
  unfold Obligations.PseudoInstructionsRun
  intro s x y z i rest
  refine ⟨?_, ?_, ?_, ?_, ?_, ?_⟩
  · exact (core_run_arg0.trans core_run_arg1).trans (core_run_cmd (decode_encode .parse))
  · exact ((core_run_arg0.trans core_run_arg1).trans core_run_arg2).trans (core_run_cmd (decode_encode .probe))
  · exact ((core_run_arg0.trans core_run_arg1).trans core_run_arg2).trans (core_run_cmd (decode_encode .decodeTile))
  · exact (core_run_arg0.trans core_run_arg1).trans (core_run_cmd (decode_encode .extractTiles))
  · exact core_run_arg0.trans (core_run_cmd (decode_encode .loadTile))
  · exact (core_run_arg0.trans core_run_arg1).trans (core_run_cmd (decode_encode .resolve))

end Sys2Proof.Machine
end

section
/-! PROOFS. The container parser (R100 to R111). First the bytes that a word and a header hold, and the header's own checks one by
one; then what PARSE, PROBE and a read of a derived register answer on known header bytes. O18, O19, O20 and O22 from these rules. -/

namespace Sys2Proof.Machine

variable {s : State} {r : RomGroup} {H K M : Nat → Byte} {avail base : Nat}

/-! ## Bytes and words -/

/-- A word is fixed by its little-endian value (R66). -/
theorem eq_packWord_of_toNat {w : Word} {b0 b1 b2 b3 : Byte}
    (h : w.toNat = b0.toNat + b1.toNat * 2 ^ 8 + b2.toNat * 2 ^ 16 + b3.toNat * 2 ^ 24) : w = packWord b0 b1 b2 b3 :=
  BitVec.eq_of_toNat_eq (h.trans (packWord_toNat b0 b1 b2 b3).symm)

theorem wordByte_packWord_of_lt (B : Nat → Byte) {i : Nat} (h : i < 4) : wordByte (packWord (B 0) (B 1) (B 2) (B 3)) i = B i := by
  obtain ⟨h0, h1, h2, h3⟩ := wordByte_packWord (B 0) (B 1) (B 2) (B 3)
  iterate 4 (rcases i with _ | i; · assumption)
  omega

/-- Header words that pack the bytes of `H` store these bytes (R30). -/
theorem RomGroup.header_of_hdrWord (h : ∀ j, j < 4 → (r.hdrWord j).toNat = (H (4 * j)).toNat + (H (4 * j + 1)).toNat * 2 ^ 8 +
    (H (4 * j + 2)).toNat * 2 ^ 16 + (H (4 * j + 3)).toNat * 2 ^ 24) {i : Nat} (hi : i < 16) : r.header i = H i := by
  rw [RomGroup.header, eq_packWord_of_toNat (h (i / 4) (by omega))]
  have byte := wordByte_packWord_of_lt (fun k => H (4 * (i / 4) + k)) (i := i % 4) (by omega)
  rwa [Nat.div_add_mod] at byte

/-- A memory that holds the bytes of `H` reads as them. -/
theorem HoldsBytes.exists_readBytes {m : Mem} {a n : Nat} (h : HoldsBytes m a n H) :
    ∃ bs, readBytes m a n = .ok bs ∧ ∀ i, i < n → byteAt bs i = H i := by
  obtain ⟨bs, hb⟩ := readBytes_of_written fun i hi => ⟨H i, h i hi⟩
  exact ⟨bs, hb, fun i hi => byteAt_of_readBytes hb h hi⟩

/-! ## The header's checks and sizes -/

theorem magicOk_congr (h : ∀ i, i < 4 → H i = K i) : magicOk H = magicOk K := by
  simp [magicOk, h]

theorem magicOk_eq_decide (H : Nat → Byte) : magicOk H = decide (H 0 = 0x4E ∧ H 1 = 0x45 ∧ H 2 = 0x53 ∧ H 3 = 0x1A) := by
  rw [Bool.eq_iff_iff, magicOk_iff, decide_eq_true_iff]

theorem containerError_congr (h : ∀ i, i < 16 → H i = K i) : containerError H avail = containerError K avail := by
  obtain ⟨hmagic, htrainer, hprg, hchr, -⟩ := derived_congr fun i hi => h i (by omega)
  simp only [containerError, hmagic, htrainer, hprg, hchr]

theorem containerError_magic (h : ¬magicOk H = true) : containerError H avail = some formatError := by
  simp [containerError, h]

section GoodMagic

variable (hm : magicOk H = true)
include hm

theorem containerError_trainer (h : avail - 16 < trainerSizeBytes H) :
    containerError H avail = some (incompleteData .trainer (trainerSizeBytes H) (avail - 16)) := by
  simp [containerError, hm, h, Nat.zero_lt_of_lt h]

theorem containerError_program (hT : 16 + trainerSizeBytes H ≤ avail) (h : avail - 16 - trainerSizeBytes H < prgSizeBytes H) :
    containerError H avail = some (incompleteData .program (prgSizeBytes H) (avail - 16 - trainerSizeBytes H)) := by
  simp [containerError, hm, show ¬avail - 16 < trainerSizeBytes H by omega, h]

theorem containerError_graphics (hP : 16 + trainerSizeBytes H + prgSizeBytes H ≤ avail)
    (h : avail - 16 - trainerSizeBytes H - prgSizeBytes H < chrSizeBytes H) : containerError H avail =
      some (incompleteData .graphics (chrSizeBytes H) (avail - 16 - trainerSizeBytes H - prgSizeBytes H)) := by
  simp [containerError, hm, show ¬avail - 16 < trainerSizeBytes H by omega,
    show ¬avail - 16 - trainerSizeBytes H < prgSizeBytes H by omega, h]

end GoodMagic

theorem totalSize_lt (H : Nat → Byte) : totalSize H < 2 ^ 32 := by
  obtain ⟨hT, hP, hC⟩ := sizes_lt H
  unfold totalSize
  omega

/-! ## PARSE and PROBE on known bytes -/

/-- What PARSE at `base` stores for a header `H` (R100): its packed words, its lengths, and each offset that fits its register. -/
structure RomDescribes (base : Nat) (H : Nat → Byte) (r : RomGroup) : Prop where
  words : ∀ j, j < 4 → (r.hdrWord j).toNat = (H (4 * j)).toNat + (H (4 * j + 1)).toNat * 2 ^ 8 +
    (H (4 * j + 2)).toNat * 2 ^ 16 + (H (4 * j + 3)).toNat * 2 ^ 24
  trnLen : r.trnLen.toNat = trainerSizeBytes H
  prgLen : r.prgLen.toNat = prgSizeBytes H
  chrLen : r.chrLen.toNat = chrSizeBytes H
  trnOff : base + 16 < 2 ^ 32 → r.trnOff.toNat = base + 16
  prgOff : base + 16 + trainerSizeBytes H < 2 ^ 32 → r.prgOff.toNat = base + 16 + trainerSizeBytes H
  chrOff : base + 16 + trainerSizeBytes H + prgSizeBytes H < 2 ^ 32 →
    r.chrOff.toNat = base + 16 + trainerSizeBytes H + prgSizeBytes H

theorem romDescribes_romOf {bs : List Byte} (h : ∀ i, i < 16 → byteAt bs i = H i) : RomDescribes base H (romOf base bs) := by
  obtain ⟨hT, hP, hC⟩ := sizes_lt H
  obtain ⟨-, etrainer, eprg, echr, -⟩ := derived_congr fun i hi => h i (by omega)
  refine ⟨fun j hj => ?_, ?_, ?_, ?_, regWord_toNat, ?_, ?_⟩
  · rw [hdrWord_romOf _ _ hj, packedWord_toNat, h _ (by omega), h _ (by omega), h _ (by omega), h _ (by omega)]
  · rw [romOf, etrainer]; exact regWord_toNat (by omega)
  · rw [romOf, eprg]; exact regWord_toNat (by omega)
  · rw [romOf, echr]; exact regWord_toNat (by omega)
  · rw [romOf, etrainer]; exact regWord_toNat
  · rw [romOf, etrainer, eprg]; exact regWord_toNat

/-- PARSE of an admitted region with a written header: the first check that fails names the error, and where none does the ROM
group describes the header (R100, R202). -/
theorem execParse_holds (inside : opBase s + opAvail s ≤ Config.inSize) (long : 16 ≤ opAvail s)
    (held : HoldsBytes s.inMem (opBase s) 16 H) :
    (∀ e, containerError H (opAvail s) = some e → execParse s = .next (s.raise e (some .rom))) ∧
      (containerError H (opAvail s) = none →
        ∃ r, execParse s = .next (s.withRom r).finish ∧ RomDescribes (opBase s) H r) := by
  obtain ⟨bs, hb, hH⟩ := held.exists_readBytes
  obtain ⟨error, done⟩ := execParse_header inside long hb
  rw [containerError_congr hH] at error done
  exact ⟨error, fun hn => ⟨_, done hn, romDescribes_romOf hH⟩⟩

/-- PROBE that reads four written bytes answers whether they are the magic (R111). -/
theorem execProbe_holds (inside : opBase s + opAvail s ≤ Config.inSize) (ext : opExtOk s = true)
    (long : Config.probeMinLen ≤ opAvail s) (held : HoldsBytes s.inMem (opBase s) 4 M) :
    execProbe s = .next (s.withProbe (magicOk M)).finish := by
  obtain ⟨bs, hb, hM⟩ := held.exists_readBytes
  obtain ⟨answer, -⟩ := execProbe_read inside ext long
  rw [answer bs hb, magicOk_congr hM]

theorem probeMinLen_cases : Config.probeMinLen = 4 ∨ Config.probeMinLen = 16 := by
  unfold Config.probeMinLen
  split
  · exact .inl rfl
  · exact .inr rfl

/-! ## The derived header registers -/

theorem mapperNumber_toNat (H : Nat → Byte) : (mapperNumber H).toNat = (H 7).toNat / 16 * 16 + (H 6).toNat / 16 := by
  have highNibble : ∀ b : Byte, b &&& 0xF0 = b >>> 4 <<< 4 := by decide
  have h6 := (H 6).isLt
  have h7 := (H 7).isLt
  have fits : (H 7).toNat / 16 * 16 < 2 ^ 8 := by omega
  have disjoint := Nat.shiftLeft_add_eq_or_of_lt (i := 4) (b := (H 6).toNat / 16) (by omega) ((H 7).toNat / 16)
  rw [Nat.shiftLeft_eq] at disjoint
  rw [mapperNumber, highNibble, BitVec.toNat_or, BitVec.toNat_shiftLeft, BitVec.toNat_ushiftRight, BitVec.toNat_ushiftRight,
    Nat.shiftRight_eq_div_pow, Nat.shiftRight_eq_div_pow, Nat.shiftLeft_eq, Nat.mod_eq_of_lt fits]
  exact disjoint.symm

theorem isNes2_iff (H : Nat → Byte) : isNes2 H = true ↔ (H 7).toNat / 4 % 4 = 2 := by
  rw [isNes2, beq_iff_eq, ← BitVec.toNat_inj, BitVec.toNat_and, BitVec.toNat_ushiftRight, Nat.shiftRight_eq_div_pow]
  exact iff_of_eq (congrArg (· = 2) (Nat.and_two_pow_sub_one_eq_mod _ 2))

theorem mirroringOf_code (H : Nat → Byte) :
    (mirroringOf H).code = if (H 6).getLsbD 3 then 2 else if (H 6).getLsbD 0 then 1 else 0 := by
  unfold mirroringOf
  split
  · rfl
  · split <;> rfl

/-- The four flags stand in bits 0 to 3 of HDR_FLAGS, and no bit above is set (R32). -/
theorem hdrFlags_bits (H : Nat → Byte) : (hdrFlags H).getLsbD 0 = hasBattery H ∧ (hdrFlags H).getLsbD 1 = hasTrainer H ∧
    (hdrFlags H).getLsbD 2 = isNes2 H ∧ (hdrFlags H).getLsbD 3 = magicOk H ∧ (hdrFlags H).toNat < 16 := by
  unfold hdrFlags
  generalize hasBattery H = battery, hasTrainer H = trainer, isNes2 H = nes2, magicOk H = magic
  revert battery trainer nes2 magic
  decide

/-- With ROM_VALID = 1 every member of the ROM group is readable (R26). -/
theorem readReg_rom {q : Reg} (hv : s.romValid = true) (hg : q.group = some .rom) : readReg q s = .ok (regValue s q) :=
  readReg_readable (State.readable_iff.2 fun g h => by
    obtain rfl : Group.rom = g := Option.some.inj (hg.symm.trans h)
    exact hv)

theorem readReg_rom_toNat {q : Reg} {n : Nat} (hv : s.romValid = true) (hg : q.group = some .rom) (h : (regValue s q).toNat = n) :
    ∃ w, readReg q s = .ok w ∧ w.toNat = n := ⟨_, readReg_rom hv hg, h⟩

/-! ## The statements -/

/-- Settles O18: the region and length checks, then the header's checks in their order, and the ROM group where all pass. -/
theorem parseFollowsItsRule : Obligations.ParseFollowsItsRule := by
  unfold Obligations.ParseFollowsItsRule
  rintro s _ _ rfl rfl
  refine ⟨fun outside => ?_, fun inside short => ⟨fun hp => ?_, fun hp => ?_⟩, ?_⟩
  · exact (execParse_outside outside).trans (by rw [State.raise_romGroup]; rfl)
  · refine (execParse_short inside short).trans ?_
    rw [shortHeaderError, hp, State.raise_romGroup]
    rfl
  · refine (execParse_short inside short).trans ?_
    rw [shortHeaderError, hp, State.raise_romGroup]
    simp [incompleteData, opAvail]
  · rintro H _ _ _ inside long held rfl rfl rfl
    obtain ⟨error, done⟩ := execParse_holds inside long held
    simp only [State.raise_romGroup] at error
    rw [← magicOk_iff]
    refine ⟨fun hm => error _ (containerError_magic hm),
      fun hm => ⟨fun hT => ?_, fun hT hP => ?_, fun hP hC => ?_, fun fits => ?_⟩⟩
    · exact error _ (containerError_trainer hm hT)
    · exact error _ (containerError_program hm hT hP)
    · exact error _ (containerError_graphics hm hP hC)
    · obtain ⟨r, hr, words, trnLen, prgLen, chrLen, trnOff, prgOff, chrOff⟩ := done ((containerError_none long).2 ⟨hm, fits⟩)
      exact ⟨r, hr, words, trnLen, prgLen, chrLen, trnOff, prgOff, chrOff⟩

/-- Settles O22: PROBE answers 0 without reading, or whether the bytes it reads are the magic. -/
theorem probeFollowsItsRule : Obligations.ProbeFollowsItsRule := by
  unfold Obligations.ProbeFollowsItsRule
  rintro s _ _ rfl rfl
  refine ⟨fun bad => ?_, fun M inside ext long held => ?_, probeMinLen_cases⟩
  · refine execProbe_no ?_
    rintro ⟨inside, ext, long⟩
    obtain outside | noExt | short := bad
    · exact absurd inside (Nat.not_le.2 outside)
    · exact absurd (noExt.symm.trans ext) (by decide)
    · exact absurd long (Nat.not_le.2 short)
  · rw [← magicOk_eq_decide]
    exact execProbe_holds inside ext long held

/-- Settles O19: the header words store `H`, and each derived register computes its rule's value from the stored bytes. -/
theorem derivedHeaderRegisters : Obligations.DerivedHeaderRegisters := by
  unfold Obligations.DerivedHeaderRegisters
  intro s H hv words
  have stored : ∀ i, i < 8 → s.rom.header i = H i := fun i hi => RomGroup.header_of_hdrWord words (by omega)
  obtain ⟨-, etrainer, eprg, echr, etotal, emapper, emirroring, eflags⟩ := derived_congr stored
  obtain ⟨hT, hP, hC⟩ := sizes_lt H
  obtain ⟨battery, trainer, nes2, magic, small⟩ := hdrFlags_bits H
  refine ⟨readReg_rom_toNat hv rfl ?_, ?_, ⟨_, readReg_rom hv rfl, ?_⟩, readReg_rom_toNat hv rfl ?_, readReg_rom_toNat hv rfl ?_,
    readReg_rom_toNat hv rfl ?_, readReg_rom_toNat hv rfl ?_, readReg_rom_toNat hv rfl ?_, readReg_rom_toNat hv rfl ?_⟩
  · rw [regValue, emapper, BitVec.toNat_setWidth_of_le (by decide), mapperNumber_toNat]
  · rw [readReg_rom hv rfl, regValue, emirroring, mirroringOf_code]
  · rw [regValue, eflags]
    exact ⟨battery, trainer, by rw [nes2, isNes2_iff], by rw [magic, magicOk_iff], small⟩
  · rw [regValue, stored 4 (by omega), BitVec.toNat_setWidth_of_le (by decide)]
  · rw [regValue, stored 5 (by omega), BitVec.toNat_setWidth_of_le (by decide)]
  · rw [regValue, eprg, BitVec.toNat_ofNat, Nat.mod_eq_of_lt (by omega), prgSizeBytes]
  · rw [regValue, echr, BitVec.toNat_ofNat, Nat.mod_eq_of_lt (by omega), chrSizeBytes]
  · rw [regValue, etrainer, BitVec.toNat_ofNat, Nat.mod_eq_of_lt (by omega)]
    rfl
  · rw [regValue, etotal, BitVec.toNat_ofNat, Nat.mod_eq_of_lt (totalSize_lt H)]
    rfl

/-- Settles O20: the invariant's ROM part gives the magic, the lengths and one base from which all three offsets count. -/
theorem validRomDescribesContainer : Obligations.ValidRomDescribesContainer := by
  unfold Obligations.ValidRomDescribesContainer
  intro s hs hv
  obtain ⟨hmagic, htrn, hprg, hchr, base, hfits, etrn, eprg, echr⟩ := hs.rom hv
  refine ⟨?_, ?_, fun hsize => ?_⟩
  · obtain ⟨-, -, -, magic, -⟩ := hdrFlags_bits s.rom.header
    exact magic.trans hmagic
  · rw [htrn, hprg, hchr]
    rw [regValue, BitVec.toNat_ofNat, Nat.mod_eq_of_lt (totalSize_lt s.rom.header), totalSize]
  · unfold totalSize at hfits
    rw [etrn, eprg, echr, regWord_toNat (by omega), regWord_toNat (by omega), regWord_toNat (by omega), htrn, hprg, hchr]
    omega

end Sys2Proof.Machine
end

section
/-! PROOFS. The tile decoder (R140 to R148). First decode16 and its inverse column by column, then the TR group of 16 raw bytes and a
grid, then EXTRACT_TILES on written blocks, MASK and TR_QUERY, and what a command that ends with OK does to its group; O23 to O30 and
O38 from these rules. -/

namespace Sys2Proof.Machine

variable {s t : State} {bs cs : List Byte} {B : Nat → Byte} {x y j k : Nat}

/-! ## decode16 and its inverse, column by column -/

/-- decode16 reads one bit of each plane (R140). -/
theorem decodePixel_toNat (B : Nat → Byte) (y x : Nat) : (decodePixel B y x).toNat =
    2 * ((B (y + 8)).toNat / 2 ^ (7 - x) % 2) + (B y).toNat / 2 ^ (7 - x) % 2 := by
  have planes : ∀ high low : Bool, (((BitVec.ofBool high).setWidth 2 <<< 1) ||| (BitVec.ofBool low).setWidth 2).toNat =
      2 * high.toNat + low.toNat := by decide
  rw [decodePixel, planes, ← Nat.toNat_testBit, ← Nat.toNat_testBit, BitVec.testBit_toNat, BitVec.testBit_toNat]

/-- Two bytes with the same bit 7−x in each column x are the same. -/
theorem byte_ext_columns {b c : Byte} (h : ∀ x, x < 8 → b.toNat / 2 ^ (7 - x) % 2 = c.toNat / 2 ^ (7 - x) % 2) : b = c := by
  refine BitVec.eq_of_getLsbD_eq fun i hi => ?_
  have bit := h (7 - i) (by omega)
  rw [show 7 - (7 - i) = i by omega] at bit
  rw [← BitVec.testBit_toNat, ← BitVec.testBit_toNat, Nat.testBit_eq_decide_div_mod_eq, Nat.testBit_eq_decide_div_mod_eq, bit]

/-- In a byte that is the sum of eight bits, column x at bit 7−x, column x is its bit. -/
theorem column_of_bitSum {v : Nat → Nat} (h : ∀ x, x < 8 → v x < 2) (hx : x < 8) :
    (BitVec.ofNat 8 ((List.range 8).map fun x => v x <<< (7 - x)).sum).toNat / 2 ^ (7 - x) % 2 = v x := by
  have columns := eachColumn h
  have terms : (List.range 8).map (fun x => v x <<< (7 - x)) =
      [v 0 * 128, v 1 * 64, v 2 * 32, v 3 * 16, v 4 * 8, v 5 * 4, v 6 * 2, v 7] := by
    simp [List.range_succ, Nat.shiftLeft_eq]
  rw [terms, BitVec.toNat_ofNat]
  simp only [List.sum_cons, List.sum_nil]
  iterate 8 (rcases x with _ | x; · simp only [Nat.zero_add, Nat.reduceAdd, Nat.reduceSub, Nat.reducePow]; omega)
  omega

/-- Column x of a byte of the inverse: the low bits of the grid in bytes 0 to 7, its high bits in bytes 8 to 15 (R146). -/
theorem column_encodeByte (pix : Nat → Nat → Pixel) (i : Nat) (hx : x < 8) : (encodeByte pix i).toNat / 2 ^ (7 - x) % 2 =
    if i < 8 then (pix i x).toNat % 2 else (pix (i - 8) x).toNat / 2 := by
  refine column_of_bitSum (v := fun x => if i < 8 then (pix i x).toNat % 2 else (pix (i - 8) x).toNat / 2) (fun x _ => ?_) hx
  have := (pix (i - 8) x).isLt
  show (if i < 8 then _ else _) < 2
  split <;> omega

/-! ## The TR group of 16 raw bytes and a grid -/

theorem rawWord_trOf_toNat {index : Word} {v : Nat → Nat → Nat} (h : ∀ i, i < 16 → byteAt bs i = B i) (hj : j < 4) :
    ((trOf index bs v).rawWord j).toNat = (B (4 * j)).toNat + (B (4 * j + 1)).toNat * 2 ^ 8 +
      (B (4 * j + 2)).toNat * 2 ^ 16 + (B (4 * j + 3)).toNat * 2 ^ 24 := by
  rw [rawWord_trOf _ _ _ hj, packedWord_toNat, h _ (by omega), h _ (by omega), h _ (by omega), h _ (by omega)]

/-- Pixel (y,x) of TR as the two bits of its row's value (R35). -/
theorem TrGroup.pixel_toNat (t : TrGroup) (y x : Nat) : (t.pixel y x).toNat = (t.row y).toNat / 4 ^ x % 4 := by
  rw [TrGroup.pixel, BitVec.extractLsb'_toNat, Nat.shiftRight_eq_div_pow, Nat.pow_mul]

/-- A row of eight bytes, each shifted to its column, overflows nothing (R144). -/
theorem packRow_toNat_of_bytes {v : Nat → Nat} (h : ∀ x, x < 8 → v x < 2 ^ 8) : (packRow v).toNat =
    v 0 + v 1 * 4 + v 2 * 4 ^ 2 + v 3 * 4 ^ 3 + v 4 * 4 ^ 4 + v 5 * 4 ^ 5 + v 6 * 4 ^ 6 + v 7 * 4 ^ 7 := by
  have columns := eachColumn h
  have terms : (List.range 8).map (fun x => v x <<< (2 * x)) =
      [v 0, v 1 * 4, v 2 * 4 ^ 2, v 3 * 4 ^ 3, v 4 * 4 ^ 4, v 5 * 4 ^ 5, v 6 * 4 ^ 6, v 7 * 4 ^ 7] := by
    simp [List.range_succ, Nat.shiftLeft_eq]
  rw [packRow, BitVec.toNat_ofNat, terms]
  simp only [List.sum_cons, List.sum_nil]
  omega

theorem packRow_congr {v w : Nat → Nat} (h : ∀ x, x < 8 → v x = w x) : packRow v = packRow w := by
  unfold packRow
  rw [List.map_congr_left fun x hx => by rw [h x (List.mem_range.1 hx)]]

/-- The TR group depends on the 16 raw bytes and the 64 pixels only. -/
theorem trOf_congr {index : Word} {v w : Nat → Nat → Nat} (hbytes : ∀ i, i < 16 → byteAt bs i = byteAt cs i)
    (hgrid : ∀ y x, y < 8 → x < 8 → v y x = w y x) : trOf index bs v = trOf index cs w := by
  have word : ∀ j, j < 4 → packedWord bs j = packedWord cs j := fun j hj => by
    rw [packedWord, packedWord, hbytes _ (by omega), hbytes _ (by omega), hbytes _ (by omega), hbytes _ (by omega)]
  have row : ∀ y, y < 8 → packRow (v y) = packRow (w y) := fun y hy => packRow_congr fun x hx => hgrid y x hy hx
  simp [trOf, word, row]

/-! ## DECODE_TILE, EXTRACT_TILES and LOAD_TILE on known bytes -/

/-- A command that finishes with a TR group answers one that has whatever was shown of it. Stated for any group, so that using it
does not evaluate the rows. -/
theorem exists_trGroup {o : Host.Outcome State Fault Refusal} {g : TrGroup} {P : TrGroup → Prop}
    (h : o = .next (s.withTr g).finish) (hg : P g) : ∃ t, o = .next { s with
      err := .ok, errSeg := .none, errExpected := 0, errActual := 0, tr := t, trValid := true } ∧ P t := ⟨g, h, hg⟩

/-- An EXTRACT_TILES that ends with OK: the region was admitted, and the loop's TMEM and count are what it wrote (R143). -/
theorem execExtractTiles_ok (h : exec .extractTiles s = .next t) (hok : t.err = .ok) :
    ∃ m, opBase s + opAvail s ≤ Config.inSize ∧ extractRecords s.inMem (opBase s) s.tmem (opAvail s / 16) = .ok m ∧
      t = (s.withTiles (BitVec.ofNat 32 (opAvail s / 16)) m).finish := by
  obtain rfl | done := execExtractTiles_cases h
  · exact absurd hok argumentError_ok.notOk
  · exact done

/-! ## TR_QUERY -/

/-- The bits that a fold of single bits sets. -/
theorem getLsbD_foldl_bits (f : Nat → Nat) (l : List Nat) (m : BitVec 4) (hk : k < 4) :
    (l.foldl (fun (m : BitVec 4) i => m ||| (1 <<< f i)) m).getLsbD k = true ↔ m.getLsbD k = true ∨ ∃ i ∈ l, f i = k := by
  induction l generalizing m with
  | nil => simp
  | cons a l ih =>
    have bit : ((1 <<< f a : Nat) : BitVec 4).getLsbD k = true ↔ f a = k := by
      rw [BitVec.natCast_eq_ofNat, BitVec.getLsbD_ofNat, Nat.one_shiftLeft, Nat.testBit_two_pow]
      simp [hk]
    rw [List.foldl_cons, ih, BitVec.getLsbD_or, Bool.or_eq_true, bit, or_assoc]
    simp

/-- Bit v of MASK is set iff some pixel has value v (R145). -/
theorem TrGroup.mask_getLsbD (t : TrGroup) (hk : k < 4) :
    t.mask.getLsbD k = true ↔ ∃ y x, y < 8 ∧ x < 8 ∧ (t.pixel y x).toNat = k := by
  rw [TrGroup.mask, getLsbD_foldl_bits (fun i => (t.pixel (i / 8) (i % 8)).toNat) _ _ hk]
  constructor
  · rintro (zero | ⟨i, hi, hp⟩)
    · simp at zero
    · have := List.mem_range.1 hi
      exact ⟨i / 8, i % 8, by omega, by omega, hp⟩
  · rintro ⟨y, x, hy, hx, hp⟩
    refine .inr ⟨8 * y + x, List.mem_range.2 (by omega), ?_⟩
    rwa [show (8 * y + x) / 8 = y by omega, show (8 * y + x) % 8 = x by omega]

/-- The value of each pixel is in MASK. -/
theorem TrGroup.mask_pixel (t : TrGroup) (hy : y < 8) (hx : x < 8) : t.mask.getLsbD (t.pixel y x).toNat = true :=
  (t.mask_getLsbD (t.pixel y x).isLt).2 ⟨y, x, hy, hx, rfl⟩

theorem TrGroup.mask_ne_zero (t : TrGroup) : t.mask ≠ 0 := fun h => by
  have first := t.mask_pixel (y := 0) (x := 0) (by decide) (by decide)
  simp [h] at first

/-- MASK holds value 0 alone iff every pixel is 0 (R145). -/
theorem TrGroup.mask_eq_one_iff (t : TrGroup) : t.mask = 1 ↔ ∀ y x, y < 8 → x < 8 → t.pixel y x = 0 := by
  constructor
  · intro h y x hy hx
    have bit := t.mask_pixel hy hx
    rw [h] at bit
    simpa [BitVec.getLsbD_one, ← BitVec.toNat_inj] using bit
  · intro h
    refine BitVec.eq_of_getLsbD_eq fun v hv => ?_
    rw [Bool.eq_iff_iff, t.mask_getLsbD hv]
    constructor
    · rintro ⟨y, x, hy, hx, rfl⟩
      simp [h y x hy hx]
    · intro hone
      obtain rfl : v = 0 := by simpa [BitVec.getLsbD_one] using hone
      exact ⟨0, 0, by decide, by decide, by rw [h 0 0 (by decide) (by decide)]; rfl⟩

/-- The fields of TR_QUERY as a word of MASK (R145). -/
theorem TrGroup.query_fields (t : TrGroup) : (∀ v, v < 4 → t.query.getLsbD v = t.mask.getLsbD v) ∧
    t.query.toNat / 16 % 8 =
      t.query.toNat % 2 + t.query.toNat / 2 % 2 + t.query.toNat / 4 % 2 + t.query.toNat / 8 % 2 ∧
    1 ≤ t.query.toNat / 16 % 8 ∧ t.query.toNat / 16 % 8 ≤ 4 ∧ t.query.getLsbD 8 = (t.mask == 1) ∧
    t.query.getLsbD 7 = false ∧ t.query.toNat < 2 ^ 9 := by
  have nonzero := t.mask_ne_zero
  unfold TrGroup.query
  generalize t.mask = mask at *
  revert mask
  decide

/-! ## The result groups and their commands -/

/-- The result group whose members a command writes (R148); PROBE writes none. -/
def resultGroup : Instr → Option Group
  | .parse => some .rom
  | .probe => none
  | .decodeTile => some .tr
  | .extractTiles => some .tiles
  | .loadTile => some .tr
  | .resolve => some .pal

/-- A command that ends with OK has set its group's VALID bit (R25). -/
theorem exec_ok_groupValid {i : Instr} {g : Group} (h : exec i s = .next t) (hok : t.err = .ok) (hg : resultGroup i = some g) :
    t.groupValid g = true := by
  cases i <;> cases hg
  case parse =>
    obtain ⟨e, he, rfl⟩ | ⟨bs, -, -, -, -, -, rfl⟩ := execParse_cases h
    · exact absurd hok he.notOk
    · rfl
  case decodeTile =>
    obtain rfl | ⟨bs, -, -, -, rfl⟩ := execDecodeTile_cases h
    · exact absurd hok argumentError_ok.notOk
    · rfl
  case extractTiles =>
    obtain ⟨m, -, -, rfl⟩ := execExtractTiles_ok h hok
    rfl
  case loadTile =>
    obtain rfl | ⟨bs, -, -, -, rfl⟩ := execLoadTile_cases h
    · exact absurd hok argumentError_ok.notOk
    · rfl
  case resolve =>
    cases (execResolve_eq s).symm.trans h
    rfl

/-! ## The statements -/

/-- Settles O23: the value is the two planes' bits, and decode16 names no other bit of the block. -/
theorem pixelLanes : Obligations.PixelLanes := by
  unfold Obligations.PixelLanes
  refine ⟨fun B y x _ _ => decodePixel_toNat B y x, fun B C y x _ _ low high => ?_⟩
  rw [decodePixel, decodePixel, low, high]

/-- Settles O24: both sides of each law agree column by column. -/
theorem decodeIsBijection : Obligations.DecodeIsBijection := by
  unfold Obligations.DecodeIsBijection
  refine ⟨fun B i hi => byte_ext_columns fun x hx => ?_, fun pix y x hy hx => BitVec.eq_of_toNat_eq ?_⟩
  · rw [column_encodeByte _ _ hx, decodePixel_toNat, decodePixel_toNat]
    split
    · omega
    · rw [Nat.sub_add_cancel (by omega)]
      omega
  · rw [decodePixel_toNat, column_encodeByte _ _ hx, column_encodeByte _ _ hx, if_pos hy, if_neg (by omega),
      Nat.add_sub_cancel]
    omega

/-- Settles O25: the two checks, then the TR group of the block's bytes and of its decode16. -/
theorem decodeTileFollowsItsRule : Obligations.DecodeTileFollowsItsRule := by
  unfold Obligations.DecodeTileFollowsItsRule
  rintro s _ _ rfl rfl
  refine ⟨fun bad => (execDecodeTile_bad bad).trans (by rw [State.raise_trGroup]; rfl), fun B inside long held => ?_⟩
  obtain ⟨bs, hb, hB⟩ := held.exists_readBytes
  obtain ⟨answer, -⟩ := execDecodeTile_read inside long
  obtain ⟨pixels, highBits⟩ := trInv_trOf (bs := bs) (index := opIndex s) fun _ _ _ _ => rfl
  refine exists_trGroup (answer bs hb) ⟨rfl, fun j hj => rawWord_trOf_toNat hB hj, fun y x hy hx => ?_, highBits⟩
  rw [← TrGroup.pixel_toNat, pixels y x hy hx]
  congr 1
  exact decodePixel_congr x ((raw_trOf _ _ _ (by omega)).trans (hB _ (by omega)))
    ((raw_trOf _ _ _ (by omega)).trans (hB _ (by omega)))

/-- Settles O26: the region check, then what the loop leaves in TMEM once every block it reads has been written. -/
theorem extractTilesFollowsItsRule : Obligations.ExtractTilesFollowsItsRule := by
  unfold Obligations.ExtractTilesFollowsItsRule
  rintro s _ _ _ rfl rfl rfl
  refine ⟨fun outside => (execExtractTiles_outside outside).trans (by rw [State.raise_tilesGroup]; rfl),
    fun B inside held => ?_⟩
  have written : Written s.inMem (opBase s) (16 * (opAvail s / 16)) := fun i hi => by
    have byte := held (i / 16) (by simp only [opAvail] at hi; omega) (i % 16) (by omega)
    rw [Nat.add_assoc, Nat.div_add_mod] at byte
    exact ⟨_, byte⟩
  obtain ⟨m, hm⟩ := extractRecords_of_written (tmem := s.tmem) written
  obtain ⟨answer, -⟩ := execExtractTiles_read inside
  obtain ⟨tiles, above, -, -⟩ := extractRecords_ok hm
  refine ⟨_, m, answer m hm, tileCount_toNat s, fun k hk => ?_, above⟩
  obtain ⟨bs, hb, tile⟩ := tiles k hk
  exact tile.block fun i hi => (byteAt_of_readBytes hb (held k hk) hi).symm

/-- Settles O27: the count is the command's own; the invariant makes CHR_LEN the header's CHR_UNITS × 8192. -/
theorem tileCountLaw : Obligations.TileCountLaw := by
  unfold Obligations.TileCountLaw
  intro s t h hok
  obtain ⟨m, inside, -, rfl⟩ := execExtractTiles_ok h hok
  have count : ((s.withTiles (BitVec.ofNat 32 (opAvail s / 16)) m).finish.tileCount).toNat = s.arg1.toNat / 16 :=
    tileCount_toNat s
  have fits : s.arg1.toNat / 16 ≤ Config.tmemTiles := records_le_tmemTiles inside
  rw [count]
  refine ⟨rfl, fits, Nat.mul_le_mul_left 80 fits, fun hinv hrom harg => ?_, fun c hc => by omega⟩
  have units : (regValue s .chrUnits).toNat = (s.rom.header 5).toNat := BitVec.toNat_setWidth_of_le (by decide)
  rw [harg, (hinv.rom hrom).chrLen, units, chrSizeBytes]
  omega

/-- Settles O28: the two checks, then the TR group of the record's raw bytes and pixel bytes. -/
theorem loadTileFollowsItsRule : Obligations.LoadTileFollowsItsRule := by
  unfold Obligations.LoadTileFollowsItsRule
  rintro s _ rfl
  refine ⟨fun bad => (execLoadTile_bad bad).trans (by rw [State.raise_trGroup]; rfl), fun R hvalid hk held => ?_⟩
  obtain ⟨bs, hb, hR⟩ := held.exists_readBytes
  obtain ⟨answer, -⟩ := execLoadTile_read hvalid hk
  refine exists_trGroup (answer bs hb) ⟨rfl, fun j hj => rawWord_trOf_toNat (fun i hi => hR i (by omega)) hj, fun y hy => ?_⟩
  have column : ∀ x, x < 8 → byteAt bs (16 + 8 * y + x) = R (16 + 8 * y + x) := fun x hx => hR _ (by omega)
  rw [row_trOf _ _ _ hy, packRow_congr fun x hx => congrArg BitVec.toNat (column x hx),
    packRow_toNat_of_bytes fun x _ => (R (16 + 8 * y + x)).isLt]
  rfl

/-- Settles O29: LOAD_TILE finds the record of the block that DECODE_TILE reads, so both make one TR group of it. -/
theorem loadEqualsDecode : Obligations.LoadEqualsDecode := by
  unfold Obligations.LoadEqualsDecode
  intro s t k a h hok hk ha
  obtain ⟨m, inside, hm, rfl⟩ := execExtractTiles_ok h hok
  have count : ((s.withTiles (BitVec.ofNat 32 (opAvail s / 16)) m).finish.tileCount).toNat = opAvail s / 16 := tileCount_toNat s
  obtain ⟨tiles, -, -, -⟩ := extractRecords_ok hm
  obtain ⟨bs, hblock, tile⟩ := tiles k.toNat (count ▸ hk)
  obtain ⟨record, hrecord, raw, pixels⟩ := readBytes_of_holdsTile tile
  obtain ⟨loaded, -⟩ := execLoadTile_read (s := { (s.withTiles (BitVec.ofNat 32 (opAvail s / 16)) m).finish with arg0 := k }) rfl hk
  obtain ⟨decoded, -⟩ := execDecodeTile_read (s := { s with arg0 := a, arg1 := 16, arg2 := k })
    (show a.toNat + 16 ≤ Config.inSize by simp only [opBase] at inside; omega) (Nat.le_refl 16)
  have same : trOf k record (fun y x => (byteAt record (16 + 8 * y + x)).toNat) =
      trOf k bs (fun y x => (decodePixel (byteAt bs) y x).toNat) :=
    trOf_congr raw fun y x hy hx => by rw [pixels y x hy hx, BitVec.toNat_setWidth_of_le (by decide)]
  exact ⟨_, _, loaded record hrecord, decoded bs ((congrArg (readBytes s.inMem · 16) ha).trans hblock), same, rfl, rfl, rfl,
    rfl⟩

/-- Settles O30: MASK by the pixels' values, NDIST and EMPTY by MASK. -/
theorem tileQuery : Obligations.TileQuery := by
  unfold Obligations.TileQuery
  intro s hv
  obtain ⟨mask, ndist, least, most, empty, zero, small⟩ := s.tr.query_fields
  have readable : s.readable .trQuery = true := hv
  refine ⟨s.tr.query, readReg_readable readable, fun v hv => ?_, ndist, least, most, ?_, zero, small⟩
  · rw [mask v hv, s.tr.mask_getLsbD hv]
  · rw [empty, beq_iff_eq, s.tr.mask_eq_one_iff]

/-- Settles O38: the VALID bits by each command's success case, the other groups by its frame. -/
theorem groupsAndTheirCommands : Obligations.GroupsAndTheirCommands := by
  unfold Obligations.GroupsAndTheirCommands
  intro i s t h
  refine ⟨fun hok => ⟨?_, ?_, ?_, ?_⟩, ?_⟩
  · rintro rfl
    exact exec_ok_groupValid h hok rfl
  · rintro (rfl | rfl)
    · exact exec_ok_groupValid h hok rfl
    · exact exec_ok_groupValid h hok rfl
  · rintro rfl
    exact exec_ok_groupValid h hok rfl
  · rintro rfl
    exact exec_ok_groupValid h hok rfl
  · cases i with
    | parse => rw [exec_parse_frame h]; simp
    | probe => rw [exec_probe_frame h]; simp
    | decodeTile => rw [exec_trCommand_frame (.inl h)]; simp
    | extractTiles => rw [exec_extractTiles_frame h]; simp
    | loadTile => rw [exec_trCommand_frame (.inr h)]; simp
    | resolve => rw [exec_resolve_frame h]; simp

end Sys2Proof.Machine
end

section
/-! PROOFS. Unit PR (R171 to R179). First the slots of a resolved palette: the colour each table gives, the record an index selects,
and where the marker stands; then the lookups of R178 and the pixel bytes that LOAD_TILE copies; O31, O32, O33 and O46 from these
rules. -/

namespace Sys2Proof.Machine

variable {s t : State} {i : Int} {b : Bool} {n x y k : Nat}

/-! ## The slots of a resolved palette -/

/-- Bit 24 tells the marker from every opaque colour word (R34, R175). -/
theorem opaqueWord_ne_marker (c : Colour) : opaqueWord c ≠ transparentMarker := fun h => by
  have bit := congrArg (BitVec.getLsbD · 24) h
  simp [opaqueWord, transparentMarker] at bit

theorem opaqueSlot_zero (m : Fin 4) : opaqueSlot 0 m = opaqueWord (Config.grey m) := if_pos rfl

theorem opaqueSlot_of_ne_zero (h : i ≠ 0) (m : Fin 4) :
    opaqueSlot i m = opaqueWord (Config.ref (Config.preset (recordOf i) m)) := if_neg h

theorem opaqueSlot_ne_marker (i : Int) (m : Fin 4) : opaqueSlot i m ≠ transparentMarker := by
  by_cases h : i = 0
  · rw [h, opaqueSlot_zero]
    exact opaqueWord_ne_marker _
  · rw [opaqueSlot_of_ne_zero h]
    exact opaqueWord_ne_marker _

/-- Indices 1 to 9 select their own record (R173). -/
theorem recordOf_record (r : Fin 9) : recordOf (r.val + 1) = r := by
  rw [recordOf, dif_pos (by omega)]
  exact Fin.ext (by simp)

/-- An index outside 0..9 selects record 1, which is value 0 of `Fin 9` (R174). -/
theorem recordOf_outside (h : i < 0 ∨ 9 < i) : recordOf i = 0 := dif_neg (by omega)

/-- The slots of every index but 0, by the record the index selects (R173, R174). -/
theorem opaqueSlot_record {r : Fin 9} (h : i = r.val + 1 ∨ (r = 0 ∧ (i < 0 ∨ 9 < i))) (m : Fin 4) :
    opaqueSlot i m = opaqueWord (Config.ref (Config.preset r m)) := by
  have selected : recordOf i = r := by
    obtain rfl | ⟨rfl, outside⟩ := h
    · exact recordOf_record r
    · exact recordOf_outside outside
  rw [opaqueSlot_of_ne_zero (by omega), selected]

/-- The fallback of R174, as an equality of palettes. -/
theorem resolvePalette_outside (h : i < 0 ∨ 9 < i) (b : Bool) : resolvePalette i b = resolvePalette 1 b := by
  have slots : opaqueSlot i = opaqueSlot 1 := funext fun m =>
    (opaqueSlot_record (.inr ⟨rfl, h⟩) m).trans (opaqueSlot_record (.inl rfl) m).symm
  rw [resolvePalette, resolvePalette, slots]

/-- The palette, once the colour of every slot before the flag is known: the flag touches slot 0 alone (R171). -/
theorem resolvePalette_slots {c : Fin 4 → Word} (h : ∀ m, opaqueSlot i m = c m) (b : Bool) :
    (b = false → (resolvePalette i b).pal0 = c 0) ∧ (resolvePalette i b).pal1 = c 1 ∧ (resolvePalette i b).pal2 = c 2 ∧
      (resolvePalette i b).pal3 = c 3 :=
  ⟨fun flag => flag ▸ h 0, h 1, h 2, h 3⟩

/-- The marker stands in slot 0 alone, and there exactly when the transparency flag is 1 (R175). -/
theorem slot_resolvePalette_eq_marker_iff (hn : n < 4) :
    (resolvePalette i b).slot n = transparentMarker ↔ n = 0 ∧ b = true := by
  match n, hn with
  | 0, _ =>
    cases b with
    | true => exact iff_of_true rfl ⟨rfl, rfl⟩
    | false => exact iff_of_false (opaqueSlot_ne_marker i 0) (by simp)
  | 1, _ => exact iff_of_false (opaqueSlot_ne_marker i 1) (by simp)
  | 2, _ => exact iff_of_false (opaqueSlot_ne_marker i 2) (by simp)
  | 3, _ => exact iff_of_false (opaqueSlot_ne_marker i 3) (by simp)

/-! ## The lookups of R178 -/

theorem trColour_eq_slot (s : State) (y x : Nat) : trColour s y x = s.pal.slot ((s.tr.row y).toNat / 4 ^ x % 4) := by
  rw [trColour, PalGroup.colour, TrGroup.pixel_toNat]

theorem tmemColour_of_read {c : Byte} (h : s.tmem.read (80 * k + 16 + 8 * y + x) = some c) :
    tmemColour s k y x = s.pal.colourOfByte c := by
  rw [tmemColour, h, Option.bind_some]

/-- After a LOAD_TILE that ends with OK, the pixel byte it read from TMEM is the pixel of TR, because the invariant makes every
byte of the record a pixel value (R64, R144). -/
theorem execLoadTile_pixelByte (inv : s.Inv) (h : exec .loadTile s = .next t) (hok : t.err = .ok) (hy : y < 8) (hx : x < 8) :
    s.tmem.read (80 * s.arg0.toNat + 16 + 8 * y + x) = some ((t.tr.pixel y x).setWidth 8) := by
  obtain rfl | ⟨bs, hvalid, hk, hread, rfl⟩ := execLoadTile_cases h
  · exact absurd hok argumentError_ok.notOk
  · obtain ⟨B, held⟩ := (inv.tiles hvalid).record _ hk
    have small : ∀ x, x < 8 → (byteAt bs (16 + 8 * y + x)).toNat < 4 := fun x hx =>
      recordPixels_of_holdsTile held hread y x hy hx ▸ (decodePixel _ y x).isLt
    have stored : s.tmem.read (80 * s.arg0.toNat + 16 + 8 * y + x) = some (byteAt bs (16 + 8 * y + x)) := by
      rw [← read_of_readBytes hread (show 16 + 8 * y + x < 80 by omega), opTile]
      congr 1
      omega
    rw [stored, State.finish_tr, State.withTr_tr, pixel_trOf s.arg0 bs small hy hx]
    congr 1
    apply BitVec.eq_of_toNat_eq
    rw [BitVec.toNat_setWidth_of_le (by decide), BitVec.toNat_ofNat, Nat.mod_eq_of_lt (small x hx)]

/-! ## The statements -/

/-- Settles O31: the palette is `resolvePalette`'s, the marker stands where R175 puts it, and the other slots are the table's. -/
theorem resolveFollowsItsRule : Obligations.ResolveFollowsItsRule := by
  unfold Obligations.ResolveFollowsItsRule
  rintro s i b rfl rfl
  refine ⟨_, execResolve_eq s, fun n hn => slot_resolvePalette_eq_marker_iff hn, fun zero => ?_, fun r selected => ?_⟩
  · rw [opPaletteIndex, zero]
    exact resolvePalette_slots opaqueSlot_zero _
  · exact resolvePalette_slots (opaqueSlot_record selected) _

/-- Settles O32: both commands answer the palette of index 1. -/
theorem outOfRangeIndexFallsBack : Obligations.OutOfRangeIndexFallsBack := by
  unfold Obligations.OutOfRangeIndexFallsBack
  intro s a outside
  refine ⟨resolvePalette 1 (opTransparent s), ?_, execResolve_eq _⟩
  rw [← resolvePalette_outside outside]
  exact execResolve_eq _

/-- Settles O33: the lookup is the identity on slots, and only slot 0 can hold the marker. -/
theorem markerOnlyForPixelZero : Obligations.MarkerOnlyForPixelZero := by
  unfold Obligations.MarkerOnlyForPixelZero
  intro s t y x _ _ h
  cases (execResolve_eq s).symm.trans h
  exact ⟨rfl, (slot_resolvePalette_eq_marker_iff (s.tr.pixel y x).isLt).trans (and_congr_left' (BitVec.toNat_inj (y := 0)))⟩

/-- Settles O46: each lookup by value, then both on the pixel byte that LOAD_TILE copied. -/
theorem pixelColours : Obligations.PixelColours := by
  unfold Obligations.PixelColours
  refine ⟨fun s y x v _ _ hv => ?_, fun s k y x _ _ c hc => ?_, fun s t y x inv h hok hy hx => ?_⟩
  · rw [trColour_eq_slot, ← hv]
    exact ⟨fun h => h ▸ rfl, fun h => h ▸ rfl, fun h => h ▸ rfl, fun h => h ▸ rfl⟩
  · rw [tmemColour_of_read hc]
    exact ⟨fun h => h ▸ rfl, fun h => h ▸ rfl, fun h => h ▸ rfl, fun h => h ▸ rfl⟩
  · have pal : t.pal = s.pal := by rw [exec_trCommand_frame (.inr h)]
    rw [tmemColour_of_read (execLoadTile_pixelByte inv h hok hy hx), colourOfByte_pixel, trColour, pal]

end Sys2Proof.Machine
end

section
/-! PROOFS. Exceptions (R200 to R207). First the error a failed command raised, for its own group; then that a run keeps the
invariant, and what the codes of STATUS.ERR and ERR_SEG can be; O37, O45 and O39 from these rules. -/

namespace Sys2Proof.Machine

variable {s t : State} {i : Instr}

/-! ## A failed command -/

/-- A command that ends with an error has done nothing but raise it for its own group (R203, R204); PROBE and RESOLVE never end so. -/
theorem exec_failed (h : exec i s = .next t) (herr : t.err ≠ .ok) :
    i ≠ .probe ∧ i ≠ .resolve ∧ ∃ e, t = s.raise e (resultGroup i) := by
  cases i with
  | parse =>
    obtain ⟨e, -, rfl⟩ | ⟨bs, -, -, -, -, -, rfl⟩ := execParse_cases h
    · exact ⟨by decide, by decide, e, rfl⟩
    · exact absurd rfl herr
  | probe =>
    obtain ⟨r, rfl⟩ := execProbe_cases h
    exact absurd rfl herr
  | decodeTile =>
    obtain rfl | ⟨bs, -, -, -, rfl⟩ := execDecodeTile_cases h
    · exact ⟨by decide, by decide, argumentError, rfl⟩
    · exact absurd rfl herr
  | extractTiles =>
    obtain rfl | ⟨m, -, -, rfl⟩ := execExtractTiles_cases h
    · exact ⟨by decide, by decide, argumentError, rfl⟩
    · exact absurd rfl herr
  | loadTile =>
    obtain rfl | ⟨bs, -, -, -, rfl⟩ := execLoadTile_cases h
    · exact ⟨by decide, by decide, argumentError, rfl⟩
    · exact absurd rfl herr
  | resolve =>
    cases (execResolve_eq s).symm.trans h
    exact absurd rfl herr

/-! ## Runs keep the invariant -/

theorem core_run_inv {n : Nat} (h : s.Inv) (hrun : core.run n s = .next t) : t.Inv := by
  induction n generalizing s with
  | zero =>
    cases hrun
    exact h
  | succ n ih =>
    cases hs : core.step s with
    | next s' => exact ih (step_inv h hs) ((run_succ_of_next hs).symm.trans hrun)
    | fault f => simp [Host.Core.run, hs] at hrun
    | refused r => simp [Host.Core.run, hs] at hrun

/-- NOT_FOUND is the only outcome whose code lies outside these (R24, R207). -/
theorem ErrCode.code_toNat_mem {c : ErrCode} (h : c ≠ .notFound) : c.code.toNat ∈ [0, 1, 2, 3, 5] := by
  cases c with
  | notFound => exact absurd rfl h
  | ok | formatError | incompleteData | argumentError | illegalCommand => decide

theorem Segment.code_toNat_le (g : Segment) : g.code.toNat ≤ 4 := by
  cases g <;> decide

/-! ## The statements -/

/-- Settles O37: a failed command is one `raise`, whose update for each group is known; an illegal word's `raise` has no group. -/
theorem failedCommandInvalidates : Obligations.FailedCommandInvalidates := by
  unfold Obligations.FailedCommandInvalidates
  refine ⟨fun i s t h herr => ?_, fun w s t hw h g => ?_⟩
  · obtain ⟨hprobe, hresolve, e, rfl⟩ := exec_failed h herr
    cases i with
    | parse => exact .inl ⟨rfl, State.raise_romGroup e⟩
    | probe => exact absurd rfl hprobe
    | decodeTile => exact .inr (.inl ⟨.inl rfl, State.raise_trGroup e⟩)
    | extractTiles => exact .inr (.inr ⟨rfl, State.raise_tilesGroup e⟩)
    | loadTile => exact .inr (.inl ⟨.inr rfl, State.raise_trGroup e⟩)
    | resolve => exact absurd rfl hresolve
  · cases (issueCommand_illegal hw).symm.trans h
    rw [State.raise_noGroup]
    cases g <;> rfl

/-- Settles O45: the invariant holds after the run, and STATUS.ERR and ERR_SEG read as the codes of what it allows. -/
theorem reservedCodesNeverRead : Obligations.ReservedCodesNeverRead := by
  unfold Obligations.ReservedCodesNeverRead
  intro n s t h hrun
  rw [State.statusWord_err]
  exact ⟨ErrCode.code_toNat_mem (core_run_inv h hrun).error.neverNotFound, t.errSeg.code_toNat_le⟩

/-- Settles O39: no operand and no check of a command reads the outcome before it, and each of its next states is a `raise` or a
`finish`, which set all four of its fields. So each command unfolds to the same term on both sides. -/
theorem errorsAreNotSticky : Obligations.ErrorsAreNotSticky := by
  unfold Obligations.ErrorsAreNotSticky
  intro i s e g x y
  cases i with
  | parse => rfl
  | probe => rfl
  | decodeTile => rfl
  | extractTiles => rfl
  | loadTile => rfl
  | resolve => rfl

end Sys2Proof.Machine
end

section
/-! PROOFS. Reset and hazards (R220 to R223, R229). First what a host reads right after a reset, then that a command whose region has
been written finds every byte it reads; O43, O5, O6 and O42 from these rules. -/

namespace Sys2Proof.Machine

variable {s : State} {rest : List HostAction}

/-! ## Reset and idleness -/

theorem step_idle (hp : s.pending = []) : step s = .next s := by
  simp only [step, hostStep, hp]

theorem step_reset (hp : s.pending = .reset :: rest) : step s = .next (s.withPending rest).afterReset := step_cons hp

/-- What a register holds after a reset does not depend on the host's own record. -/
theorem regValue_afterReset (r : Reg) : regValue s.afterReset r = regValue State.reset r := rfl

theorem State.groupValid_afterReset (g : Group) : s.afterReset.groupValid g = false := by
  cases g <;> rfl

theorem State.statusWord_afterReset : s.afterReset.statusWord = 0 := by
  rw [show s.afterReset.statusWord = State.reset.statusWord from rfl]
  decide

/-! ## Commands on a written region (R223) -/

/-- The region ARG0 .. ARG0+ARG1-1 has been written since reset where it lies inside IN. -/
def RegionWritten (s : State) : Prop :=
  opBase s + opAvail s ≤ Config.inSize → Written s.inMem (opBase s) (opAvail s)

theorem Written.mono {m : Mem} {a n k : Nat} (h : Written m a n) (hk : k ≤ n) : Written m a k :=
  fun i hi => h i (Nat.lt_of_lt_of_le hi hk)

theorem execParse_completes (h : RegionWritten s) : Completes (execParse s) := by
  obtain outside | inside := Nat.lt_or_ge Config.inSize (opBase s + opAvail s)
  · exact ⟨_, execParse_outside outside⟩
  obtain short | long := Nat.lt_or_ge (opAvail s) 16
  · exact ⟨_, execParse_short inside short⟩
  obtain ⟨bs, hb⟩ := readBytes_of_written ((h inside).mono long)
  obtain ⟨error, done⟩ := execParse_header inside long hb
  cases he : containerError (byteAt bs) (opAvail s) with
  | some e => exact ⟨_, error e he⟩
  | none => exact ⟨_, done he⟩

theorem execProbe_completes (h : RegionWritten s) : Completes (execProbe s) := by
  by_cases reads : opBase s + opAvail s ≤ Config.inSize ∧ opExtOk s = true ∧ Config.probeMinLen ≤ opAvail s
  · obtain ⟨inside, ext, long⟩ := reads
    obtain ⟨bs, hb⟩ := readBytes_of_written ((h inside).mono (Nat.le_trans four_le_probeMinLen long))
    exact ⟨_, (execProbe_read inside ext long).1 bs hb⟩
  · exact ⟨_, execProbe_no reads⟩

theorem execDecodeTile_completes (h : RegionWritten s) : Completes (execDecodeTile s) := by
  by_cases bad : Config.inSize < opBase s + opAvail s ∨ opAvail s < 16
  · exact ⟨_, execDecodeTile_bad bad⟩
  · obtain ⟨inside, long⟩ : opBase s + opAvail s ≤ Config.inSize ∧ 16 ≤ opAvail s := by omega
    obtain ⟨bs, hb⟩ := readBytes_of_written ((h inside).mono long)
    exact ⟨_, (execDecodeTile_read inside long).1 bs hb⟩

theorem execExtractTiles_completes (h : RegionWritten s) : Completes (execExtractTiles s) := by
  obtain outside | inside := Nat.lt_or_ge Config.inSize (opBase s + opAvail s)
  · exact ⟨_, execExtractTiles_outside outside⟩
  · obtain ⟨m, hm⟩ := extractRecords_of_written (tmem := s.tmem) ((h inside).mono (Nat.mul_div_le (opAvail s) 16))
    exact ⟨_, (execExtractTiles_read inside).1 m hm⟩

/-- LOAD_TILE reads TMEM alone, where a valid list has a whole record for each of its tiles (R144, R147). -/
theorem execLoadTile_completes (inv : s.Inv) : Completes (execLoadTile s) := by
  by_cases bad : s.tilesValid = false ∨ s.tileCount.toNat ≤ opTile s
  · exact ⟨_, execLoadTile_bad bad⟩
  · obtain ⟨valid, listed⟩ : s.tilesValid = true ∧ opTile s < s.tileCount.toNat := by
      simpa only [not_or, Bool.not_eq_false, Nat.not_le] using bad
    obtain ⟨B, tile⟩ := (inv.tiles valid).record (opTile s) listed
    obtain ⟨bs, hb, -, -⟩ := readBytes_of_holdsTile tile
    exact ⟨_, (execLoadTile_read valid listed).1 bs hb⟩

/-! ## The statements -/

/-- Settles O43: the reset state meets each part of the invariant. -/
theorem resetMeetsInvariant : Obligations.ResetMeetsInvariant := State.reset_inv

/-- Settles O5: a step without an access to come answers the state it is given. -/
theorem idleWithoutAccess : Obligations.IdleWithoutAccess := fun _ hp => step_idle hp

/-- Settles O6: the step answers the reset state with the host's own record, and each of its fields is known. -/
theorem resetLeaves : Obligations.ResetLeaves := by
  unfold Obligations.ResetLeaves
  intro s rest hp
  refine ⟨_, step_reset hp, State.statusWord_afterReset, rfl, State.groupValid_afterReset, ?_⟩
  simp only [regValue_afterReset]
  exact ⟨rfl, rfl, rfl, rfl, rfl, rfl, rfl, fun a => rfl⟩

/-- Settles O42, command by command: PARSE, PROBE, DECODE_TILE and EXTRACT_TILES read inside the written region only, LOAD_TILE reads a
record the invariant gives, and RESOLVE reads no memory. -/
theorem commandsComplete : Obligations.CommandsComplete := by
  unfold Obligations.CommandsComplete
  intro i s inv written
  cases i with
  | parse => exact execParse_completes written
  | probe => exact execProbe_completes written
  | decodeTile => exact execDecodeTile_completes written
  | extractTiles => exact execExtractTiles_completes written
  | loadTile => exact execLoadTile_completes inv
  | resolve => exact ⟨_, execResolve_eq s⟩

end Sys2Proof.Machine
end

section
/-! PROOFS. Model faults on IN bytes not written since reset (R213, R223, item I4). First that a read of a range which is not wholly
written stops at an unwritten byte of it, then the host's read of such a byte; O41 from these rules and the commands' own. -/

namespace Sys2Proof.Machine

variable {s : State} {rest : List HostAction}

/-! ## Reads of a range that is not wholly written -/

theorem written_of_readBytes {m : Mem} {a n : Nat} {bs : List Byte} (h : readBytes m a n = .ok bs) : Written m a n :=
  fun i hi => ⟨byteAt bs i, read_of_readBytes h hi⟩

theorem readBytes_of_not_written {m : Mem} {a n : Nat} (h : ¬Written m a n) :
    ∃ e, a ≤ e ∧ e < a + n ∧ m.read e = none ∧ readBytes m a n = .error e := by
  cases hr : readBytes m a n with
  | ok bs => exact absurd (written_of_readBytes hr) h
  | error e =>
    obtain ⟨low, high, unwritten⟩ := readBytes_error hr
    exact ⟨e, low, high, unwritten, rfl⟩

/-- The loop of EXTRACT_TILES ends only if the whole blocks it reads are written: byte i lies in block i/16 (R143). -/
theorem written_of_extractRecords {inMem tmem m : Mem} {addr n : Nat} (h : extractRecords inMem addr tmem n = .ok m) :
    Written inMem addr (16 * n) := fun i hi => by
  obtain ⟨blocks, -⟩ := extractRecords_ok h
  obtain ⟨bs, hb, -⟩ := blocks (i / 16) (by omega)
  have block := written_of_readBytes hb (i % 16) (by omega)
  rwa [Nat.add_assoc, Nat.div_add_mod] at block

theorem extractRecords_of_not_written {inMem tmem : Mem} {addr n : Nat} (h : ¬Written inMem addr (16 * n)) :
    ∃ e, addr ≤ e ∧ e < addr + 16 * n ∧ inMem.read e = none ∧ extractRecords inMem addr tmem n = .error e := by
  cases hr : extractRecords inMem addr tmem n with
  | ok m => exact absurd (written_of_extractRecords hr) h
  | error e =>
    obtain ⟨low, high, unwritten⟩ := extractRecords_error hr
    exact ⟨e, low, high, unwritten, rfl⟩

/-! ## The host's read of an unwritten byte -/

theorem hostReadIn_unwritten {a : Nat} (h : a < Config.inSize) (hv : s.inMem.read a = none) :
    hostReadIn a s = .error (.unwrittenIn a) := by
  simp [hostReadIn, (withinIn_iff (a + 1)).2 h, hv]

theorem step_rdbIn_error {a : Word} {f : Fault} (hp : s.pending = .rdbIn a :: rest)
    (h : hostReadIn a.toNat (s.withPending rest) = .error f) : step s = .fault f := by
  rw [step_cons hp, hostAct, h]
  rfl

/-! ## The statement -/

/-- Settles O41: each command's fault is that of its read, which stops at an unwritten byte of the range. PARSE and DECODE_TILE make
the same read of 16 bytes, so they name the same byte. -/
theorem unwrittenInputFaults : Obligations.UnwrittenInputFaults := by
  unfold Obligations.UnwrittenInputFaults
  refine ⟨fun s a rest ha hp hv => step_rdbIn_error hp (hostReadIn_unwritten ha hv), ?_⟩
  rintro s _ _ rfl rfl inside
  refine ⟨fun long missing => ?header, fun long ext missing => ?magic, fun missing => ?blocks⟩
  case header =>
    obtain ⟨a, low, high, unwritten, stops⟩ := readBytes_of_not_written missing
    exact ⟨a, low, high, unwritten, execParse_unwritten inside long stops, (execDecodeTile_read inside long).2 a stops⟩
  case magic =>
    obtain ⟨a, low, high, unwritten, stops⟩ := readBytes_of_not_written missing
    exact ⟨a, low, high, unwritten, (execProbe_read inside ext long).2 a stops⟩
  case blocks =>
    obtain ⟨a, low, high, unwritten, stops⟩ := extractRecords_of_not_written missing
    exact ⟨a, low, high, unwritten, (execExtractTiles_read inside).2 a stops⟩

end Sys2Proof.Machine
end
